-- ==== Sys2Proof/Word.lean ====
section
/-!
DEFINITION. The value types of `00_scope.md` R8: bytes, the 16-bit instruction word, the Bit type, and text.
-/

namespace Sys2Proof

/-- An unsigned 8-bit value (R8). -/
abbrev Byte := BitVec 8

/-- The 16-bit instruction word, the source's RawInstruction (R8). Bit 0 is the least significant (R6). -/
abbrev Word := BitVec 16

/-- A finite sequence of characters, the spec's `String` (R8). DEDUCED (log entry 3). -/
abbrev Text := List Char

/-- The two-valued leaf type of `40_bit.md` R70, a type of its own and not a number: `bit1` is the true flag, `bit0` the
false flag, and there is no third value. -/
inductive Bit where
  | bit0
  | bit1
deriving DecidableEq, Repr

end Sys2Proof
end

