-- ==== Sys2Proof/Machine/Flags.lean ====
section
/-!
DEFINITION. The operations of the Bit type (`40_bit.md`). The block has no status flags: the width flag W and the
direction flag D are fields of the word, of type Bit, and nothing sets or holds them (`10_state.md` R15).
The truth tables are PRESUMED (G6, log entry 14).
-/

namespace Sys2Proof

/-- R71. -/
def Bit.fromBool (v : Bool) : Bit :=
  match v with
  | true => .bit1
  | false => .bit0

/-- R72. -/
def Bit.toBool (a : Bit) : Bool :=
  match a with
  | .bit1 => true
  | .bit0 => false

/-- The numeric form of a Bit, `1` for `Bit1` and `0` for `Bit0` (R70). -/
def Bit.toNat (a : Bit) : Nat :=
  match a with
  | .bit1 => 1
  | .bit0 => 0

/-- `NOT a` (R74). -/
def Bit.not (a : Bit) : Bit :=
  match a with
  | .bit1 => .bit0
  | .bit0 => .bit1

/-- `a AND b` (R75). -/
def Bit.and (a b : Bit) : Bit :=
  if a = .bit1 ∧ b = .bit1 then .bit1 else .bit0

/-- `a OR b` (R76). -/
def Bit.or (a b : Bit) : Bit :=
  if a = .bit0 ∧ b = .bit0 then .bit0 else .bit1

/-- `a XOR b` (R77). -/
def Bit.xor (a b : Bit) : Bit :=
  if a ≠ b then .bit1 else .bit0

/-- Equality of two Bits, a boolean and not a Bit (R79). -/
def Bit.equal (a b : Bit) : Bool :=
  match a, b with
  | .bit1, .bit1 => true
  | .bit0, .bit0 => true
  | .bit1, .bit0 => false
  | .bit0, .bit1 => false

/-- The value the variable `a` holds after `a AND= b` (R78). -/
def Bit.andAssign (a b : Bit) : Bit := Bit.and a b

/-- The value the variable `a` holds after `a OR= b` (R78). -/
def Bit.orAssign (a b : Bit) : Bit := Bit.or a b

/-- The value the variable `a` holds after `a XOR= b` (R78). -/
def Bit.xorAssign (a b : Bit) : Bit := Bit.xor a b

/-- R82. It is never part of an instruction text or a listing (`30_encoding.md` R61). -/
def Bit.render (a : Bit) : Text :=
  match a with
  | .bit1 => ['1']
  | .bit0 => ['0']

end Sys2Proof
end

