-- ==== Sys2Proof/Syntax.lean ====
section
/-!
DEFINITION. The closed sets of `00_scope.md` R8 (opcodes, registers, errors) and the instruction syntax: one constructor
for each row of `spec/opcode_table.json`.
-/

namespace Sys2Proof

/-- The two variants the opcode table can return (`41_opcode_lut.md` R93). -/
inductive Opcode where
  | moveRegister
  | unrecognized
deriving DecidableEq, Repr

/-- The sixteen register names (`10_state.md` R13). They are output symbols, not storage (R12). -/
inductive Register where
  | al | cl | dl | bl | ah | ch | dh | bh
  | ax | cx | dx | bx | sp | bp | si | di
deriving DecidableEq, Repr

/-- Every register name once (`10_state.md` R13). -/
def Register.all : List Register :=
  [.al, .cl, .dl, .bl, .ah, .ch, .dh, .bh, .ax, .cx, .dx, .bx, .sp, .bp, .si, .di]

/-- Which half of a word-width register a byte-width name is (`42_register_lut.md` R105). -/
inductive Half where
  | low
  | high
deriving DecidableEq, Repr

/-- The two error kinds of CORE, with no argument (`60_exceptions.md` R180, R184; D11). -/
inductive DecodeError where
  | invalidInstruction
  | invalidRegister
deriving DecidableEq, Repr

/-- The error kinds of the top-level operation: CORE's two, or the sequencer's own `MalformedInput`, which is no
member of `DecodeError` (`60_exceptions.md` R183). -/
inductive StreamError where
  | decode (e : DecodeError)
  | malformedInput
deriving DecidableEq, Repr

/-- The rows of `spec/opcode_table.json`. The four `illegal` rows are words the block answers with
`InvalidInstruction` (`30_encoding.md` R56); they keep the fields they ignore, so that no bit of a word is lost.
DEDUCED (log entry 9). -/
inductive Instr where
  /-- `mov`: opcode `100010`, MOD `11` (`44_formatter.md` R145). -/
  | mov (d w : Bit) (reg rm : BitVec 3)
  /-- Opcode `100010` with MOD `00` (R143). -/
  | illegalMod00 (d w : Bit) (reg rm : BitVec 3)
  /-- Opcode `100010` with MOD `01` (R143). -/
  | illegalMod01 (d w : Bit) (reg rm : BitVec 3)
  /-- Opcode `100010` with MOD `10` (R143). -/
  | illegalMod10 (d w : Bit) (reg rm : BitVec 3)
  /-- Any other opcode field (R141). -/
  | illegalOpcode (opcode : BitVec 6) (d w : Bit) (mod : BitVec 2) (reg rm : BitVec 3)
deriving DecidableEq, Repr

/-- The names of the rows of `spec/opcode_table.json`. -/
inductive Row where
  | mov
  | illegalMod00
  | illegalMod01
  | illegalMod10
  | illegalOpcode
deriving DecidableEq, Repr

/-- The table row an instruction is an instance of. -/
def Instr.row : Instr → Row
  | .mov .. => .mov
  | .illegalMod00 .. => .illegalMod00
  | .illegalMod01 .. => .illegalMod01
  | .illegalMod10 .. => .illegalMod10
  | .illegalOpcode .. => .illegalOpcode

end Sys2Proof
end

