-- ==== Sys2Proof/Config.lean ====
section
/-!
DEFINITION. The constants the block depends on, all in one record, so that a claim can name them (`00_scope.md` R5,
`10_state.md` R11). The record's value for this hardware is `Sys2Proof.Machine.config`. The spec leaves no value free, so
nothing here is opaque.
-/

namespace Sys2Proof

/-- The values of `WORD_BYTE_ORDER`: which of the two bytes is the most significant. The spec fixes the first
(`20_memory.md` R33: nothing switches it); the other is here so that the parameter says something. -/
inductive ByteOrder where
  | firstMostSignificant
  | firstLeastSignificant
deriving DecidableEq, Repr

/-- The values of `LISTING_LAYOUT`: the two readings of C2. The spec fixes the first (D7). -/
inductive ListingLayout where
  /-- A line break before every instruction line, none after the last. -/
  | breakBeforeEachLine
  /-- A line break after the header and after every instruction line: the reading of §4.5 that C2 turns down. -/
  | breakAfterEachLine
deriving DecidableEq, Repr

/-- The eighteen parameters of R5. Field by field: the name R5 gives it. The five widths are also fixed by the types
(R8); `Sys2Proof.Machine.widthsFit` says that a record's widths are those of the types. -/
structure Config where
  /-- `WORD_BITS`. -/
  wordBits : Nat
  /-- `BYTES_PER_INSTR`. -/
  bytesPerInstr : Nat
  /-- `WORD_BYTE_ORDER`. -/
  wordByteOrder : ByteOrder
  /-- `OPCODE_BITS`. -/
  opcodeBits : Nat
  /-- `OPCODE_MOV`. -/
  opcodeMov : BitVec 6
  /-- `MOD_REGDIRECT`. -/
  modRegDirect : BitVec 2
  /-- `REG_INDEX_BITS`. -/
  regIndexBits : Nat
  /-- `N_REGISTER_NAMES`. -/
  nRegisterNames : Nat
  /-- `REGNAME`, an open parameter (U4, D4): a name for each width flag and each index 0 to 7. -/
  regName : Bit → Fin 8 → Register
  /-- `MNEMONIC_MOV`. -/
  mnemonicMov : Text
  /-- `PLACEHOLDER_UNRECOGNIZED`, for display only (`41_opcode_lut.md` R92). -/
  placeholderUnrecognized : Text
  /-- `HEADER`. -/
  header : Text
  /-- `LINE_BREAK`. -/
  lineBreak : Char
  /-- `OPERAND_SEPARATOR`. -/
  operandSeparator : Text
  /-- `ODD_POLICY`: the error a dangling final byte yields (U1, D6). -/
  oddPolicy : StreamError
  /-- `LISTING_LAYOUT` (U5, D7). -/
  listingLayout : ListingLayout
  /-- `TEXT_ENCODING`: the one byte that carries a character (D5). -/
  textEncoding : Char → Byte
  /-- Maximum input length: a bound, or none (D13). -/
  maxInputLength : Option Nat

end Sys2Proof
end

