-- ==== Sys2Proof/Machine/Params.lean ====
section
/-!
DEFINITION. The values of the parameters for this hardware: the register table of `42_register_lut.md` R101 and the
constants of `00_scope.md` R5.
-/

namespace Sys2Proof.Machine

/-- `REGNAME` (R101), a match with sixteen arms as R104 asks. The entries `al` at (0, 0), `cx` at (1, 1) and `bx` at
(1, 3) are fixed by the source's examples (R102); the other thirteen are PRESUMED (log entry 4). -/
def regNameTable : Bit → Fin 8 → Register
  | .bit0, 0 => .al
  | .bit0, 1 => .cl
  | .bit0, 2 => .dl
  | .bit0, 3 => .bl
  | .bit0, 4 => .ah
  | .bit0, 5 => .ch
  | .bit0, 6 => .dh
  | .bit0, 7 => .bh
  | .bit1, 0 => .ax
  | .bit1, 1 => .cx
  | .bit1, 2 => .dx
  | .bit1, 3 => .bx
  | .bit1, 4 => .sp
  | .bit1, 5 => .bp
  | .bit1, 6 => .si
  | .bit1, 7 => .di

/-- The configuration of this hardware (R5). `lineBreak` is U+000A and `textEncoding` is ASCII (PRESUMED, log entry 5),
`oddPolicy` is D6 (DESIGN CHOICE, log entry 6), `listingLayout` is D7 (DESIGN CHOICE, log entry 7), and no length is too
long (D13, log entry 19). -/
def config : Config where
  wordBits := 16
  bytesPerInstr := 2
  wordByteOrder := .firstMostSignificant
  opcodeBits := 6
  opcodeMov := 0b100010#6
  modRegDirect := 0b11#2
  regIndexBits := 3
  nRegisterNames := 16
  regName := regNameTable
  mnemonicMov := ['m', 'o', 'v']
  placeholderUnrecognized :=
    ['i', 'n', 'v', 'a', 'l', 'i', 'd', ' ', 'i', 'n', 's', 't', 'r', 'u', 'c', 't', 'i', 'o', 'n']
  header := ['b', 'i', 't', 's', ' ', '1', '6']
  lineBreak := '\n'
  operandSeparator := [',', ' ']
  oddPolicy := .malformedInput
  listingLayout := .breakBeforeEachLine
  textEncoding := fun ch => BitVec.ofNat 8 ch.toNat
  maxInputLength := none

/-! ## What the listing layout says -/

/-- The listing before any instruction line (`45_sequencer.md` R163). -/
def listingStart (c : Config) : Text :=
  match c.listingLayout with
  | .breakBeforeEachLine => c.header
  | .breakAfterEachLine => c.header ++ [c.lineBreak]

/-- What one instruction text adds to the listing (R163). -/
def listingLine (c : Config) (text : Text) : Text :=
  match c.listingLayout with
  | .breakBeforeEachLine => c.lineBreak :: text
  | .breakAfterEachLine => text ++ [c.lineBreak]

/-! ## The input length -/

/-- May an input have this many bytes? (R5, D13) -/
def lengthAdmitted (c : Config) (n : Nat) : Bool :=
  match c.maxInputLength with
  | none => true
  | some most => decide (n ≤ most)

/-! ## The widths, and where the fields stand -/

/-- The fields of the one format (`30_encoding.md` R50). -/
inductive Field where
  | opcode
  | d
  | w
  | mod
  | reg
  | rm
deriving DecidableEq, Repr

/-- The fields from the most significant on (R50). -/
def Field.all : List Field := [.opcode, .d, .w, .mod, .reg, .rm]

/-- How many bits a field has (R50). D, W and MOD have no parameter of their own in R5. -/
def fieldWidth (c : Config) (f : Field) : Nat :=
  match f with
  | .opcode => c.opcodeBits
  | .d => 1
  | .w => 1
  | .mod => 2
  | .reg => c.regIndexBits
  | .rm => c.regIndexBits

/-- A field's lowest bit: the fields below it tile the word with no gap (R50, the column of right shifts). -/
def fieldLow (c : Config) (f : Field) : Nat :=
  match f with
  | .opcode => c.wordBits - c.opcodeBits
  | .d => fieldWidth c .rm + fieldWidth c .reg + fieldWidth c .mod + fieldWidth c .w
  | .w => fieldWidth c .rm + fieldWidth c .reg + fieldWidth c .mod
  | .mod => fieldWidth c .rm + fieldWidth c .reg
  | .reg => fieldWidth c .rm
  | .rm => 0

/-- A field's mask on the word (R50, the column of masks). -/
def fieldMask (c : Config) (f : Field) : Nat := (2 ^ fieldWidth c f - 1) * 2 ^ fieldLow c f

/-- A field's value as a number, read off the word's number by width and place alone (R50). -/
def fieldValue (c : Config) (f : Field) (word : Nat) : Nat := word / 2 ^ fieldLow c f % 2 ^ fieldWidth c f

/-- The width of a bit vector. -/
def bitWidth {n : Nat} (_ : BitVec n) : Nat := n

/-- The record's widths are those of the types, the six fields fill the word, the word is the bytes of one instruction,
and there is a register name for each width flag and each index (R5, R8, R50, R52, R104). -/
def widthsFit (c : Config) : Bool :=
  decide (c.wordBits = bitWidth (0 : Word)) && decide (c.opcodeBits = bitWidth c.opcodeMov) &&
    decide (c.wordBits = (Field.all.map (fieldWidth c)).sum) &&
    decide (c.wordBits = c.bytesPerInstr * bitWidth (0 : Byte)) &&
    decide (c.nRegisterNames = Register.all.length) && decide (c.nRegisterNames = 2 * 2 ^ c.regIndexBits)

end Sys2Proof.Machine
end

