-- ==== Sys2Proof/WellFormed.lean ====
section
/-!
DEFINITION. Which terms of `Instr` stand for a word of their own row.
-/

namespace Sys2Proof

/-- The default row is for opcode fields other than `100010` only (`30_encoding.md` R54, R56 class 1). Every other
constructor is well formed for every operand. -/
def Instr.wf : Instr → Bool
  | .mov .. => true
  | .illegalMod00 .. => true
  | .illegalMod01 .. => true
  | .illegalMod10 .. => true
  | .illegalOpcode opcode _ _ _ _ _ => decide (opcode ≠ 0b100010#6)

end Sys2Proof
end

