-- ==== Sys2Proof/Decode.lean ====
section
/-!
DEFINITION. Word construction, the six field accessors (`43_field_decoder.md`), the opcode table's rows tried in their
order (`30_encoding.md`), the decoder from bytes and the encoder back. All bit positions count from the least significant
bit (`00_scope.md` R6).
-/

namespace Sys2Proof

/-! ## Words and fields -/

/-- The word of a high byte and a low byte: each widened with zeros, the high one shifted by 8 (R120). -/
def joinBytes (high low : Byte) : Word :=
  (high.setWidth 16 <<< 8) ||| low.setWidth 16

/-- The word two input bytes form in a byte order (`WORD_BYTE_ORDER`, R5). -/
def wordOfBytesIn (order : ByteOrder) (b0 b1 : Byte) : Word :=
  match order with
  | .firstMostSignificant => joinBytes b0 b1
  | .firstLeastSignificant => joinBytes b1 b0

/-- `Word.from_bytes(b0, b1)` in this hardware's byte order: the first byte becomes the most significant (R120,
`20_memory.md` R33). -/
def wordOfBytes (b0 b1 : Byte) : Word := wordOfBytesIn Machine.config.wordByteOrder b0 b1

/-- A field's bits brought to the right: the word masked and shifted by constants, which follow from the widths of R5
(R50, R129). -/
def fieldBits (f : Machine.Field) (word : Word) : Word :=
  (word &&& BitVec.ofNat 16 (Machine.fieldMask Machine.config f)) >>> Machine.fieldLow Machine.config f

/-- The raw opcode field, `word[15:10]` (R121). -/
def opcodeField (word : Word) : BitVec 6 := (fieldBits .opcode word).setWidth 6

/-- Field D, `word[9]` (R122). -/
def fieldD (word : Word) : Bit := Bit.fromBool (fieldBits .d word == 1#16)

/-- Field W, `word[8]` (R123). -/
def fieldW (word : Word) : Bit := Bit.fromBool (fieldBits .w word == 1#16)

/-- Field MOD, `word[7:6]` (R124). -/
def fieldMod (word : Word) : BitVec 2 := (fieldBits .mod word).setWidth 2

/-- Field REG, `word[5:3]` (R125). -/
def fieldReg (word : Word) : BitVec 3 := (fieldBits .reg word).setWidth 3

/-- Field R/M, `word[2:0]` (R126). -/
def fieldRm (word : Word) : BitVec 3 := (fieldBits .rm word).setWidth 3

/-- A Bit as one bit of a word (R70). -/
def bitOf (a : Bit) : BitVec 1 :=
  match a with
  | .bit1 => 1#1
  | .bit0 => 0#1

/-- The word put together from its six fields, which tile it (R50, R128). -/
def packFields (opcode : BitVec 6) (d w : Bit) (mod : BitVec 2) (reg rm : BitVec 3) : Word :=
  (opcode.setWidth 16 <<< 10) ||| ((bitOf d).setWidth 16 <<< 9) ||| ((bitOf w).setWidth 16 <<< 8)
    ||| (mod.setWidth 16 <<< 6) ||| (reg.setWidth 16 <<< 3) ||| rm.setWidth 16

/-- The word's bits 15:8. -/
def highByte (word : Word) : Byte := (word >>> 8).setWidth 8

/-- The word's bits 7:0. -/
def lowByte (word : Word) : Byte := word.setWidth 8

/-- The first input byte of a word in this hardware's byte order (R120). -/
def firstByte (word : Word) : Byte :=
  match Machine.config.wordByteOrder with
  | .firstMostSignificant => highByte word
  | .firstLeastSignificant => lowByte word

/-- The second input byte of a word in this hardware's byte order (R120). -/
def secondByte (word : Word) : Byte :=
  match Machine.config.wordByteOrder with
  | .firstMostSignificant => lowByte word
  | .firstLeastSignificant => highByte word

/-! ## The opcode table -/

/-- One row of `spec/opcode_table.json`: a word is of the row when its masked bits equal the pattern. -/
structure TableRow where
  row : Row
  mask : Word
  pattern : Word
deriving DecidableEq, Repr

/-- Does the word have the row's fixed bits? -/
def TableRow.accepts (r : TableRow) (word : Word) : Bool :=
  word &&& r.mask == r.pattern

/-- The five rows in the order in which they are tried (`30_encoding.md`, R55 and R56). -/
def opcodeTable : List TableRow :=
  [⟨.mov, 0xFCC0#16, 0x88C0#16⟩,
   ⟨.illegalMod00, 0xFCC0#16, 0x8800#16⟩,
   ⟨.illegalMod01, 0xFCC0#16, 0x8840#16⟩,
   ⟨.illegalMod10, 0xFCC0#16, 0x8880#16⟩,
   ⟨.illegalOpcode, 0x0000#16, 0x0000#16⟩]

/-- The first row of a table that accepts the word, and the default row's name where none does. -/
def firstRow : List TableRow → Word → Row
  | [], _ => .illegalOpcode
  | r :: rs, word => if r.accepts word then r.row else firstRow rs word

/-- The row of the opcode table a word belongs to. -/
def rowOf (word : Word) : Row := firstRow opcodeTable word

/-- The instruction a row and a word make, the operands read by the accessors. -/
def instrOfRow (row : Row) (word : Word) : Instr :=
  match row with
  | .mov => .mov (fieldD word) (fieldW word) (fieldReg word) (fieldRm word)
  | .illegalMod00 => .illegalMod00 (fieldD word) (fieldW word) (fieldReg word) (fieldRm word)
  | .illegalMod01 => .illegalMod01 (fieldD word) (fieldW word) (fieldReg word) (fieldRm word)
  | .illegalMod10 => .illegalMod10 (fieldD word) (fieldW word) (fieldReg word) (fieldRm word)
  | .illegalOpcode =>
    .illegalOpcode (opcodeField word) (fieldD word) (fieldW word) (fieldMod word) (fieldReg word) (fieldRm word)

/-- The instruction a word stands for. It is total: every word is of some row (R57). -/
def decodeWord (word : Word) : Instr := instrOfRow (rowOf word) word

/-! ## Bytes -/

/-- Why a byte sequence gives no instruction. -/
inductive DecodeReject where
  /-- No byte is left. -/
  | noBytes
  /-- One byte is left, and an instruction is two (R52, `20_memory.md` R34). -/
  | danglingByte
deriving DecidableEq, Repr

/-- The first instruction of a byte sequence and the bytes after it: every instruction is exactly two bytes (R52). -/
def decode : List Byte → Except DecodeReject (Instr × List Byte)
  | [] => .error .noBytes
  | [_] => .error .danglingByte
  | b0 :: b1 :: rest => .ok (decodeWord (wordOfBytes b0 b1), rest)

/-- The word of an instruction, from the row's fixed fields and the operands. -/
def encodeWord (i : Instr) : Word :=
  match i with
  | .mov d w reg rm => packFields 0b100010#6 d w 0b11#2 reg rm
  | .illegalMod00 d w reg rm => packFields 0b100010#6 d w 0b00#2 reg rm
  | .illegalMod01 d w reg rm => packFields 0b100010#6 d w 0b01#2 reg rm
  | .illegalMod10 d w reg rm => packFields 0b100010#6 d w 0b10#2 reg rm
  | .illegalOpcode opcode d w mod reg rm => packFields opcode d w mod reg rm

/-- The two bytes of an instruction, first byte most significant (R33, R51). -/
def encode (i : Instr) : List Byte :=
  [firstByte (encodeWord i), secondByte (encodeWord i)]

/-- The word whose bits are the low `nbits` of `w`, at most `WORD_BITS` of them, every bit above them zero; bit 0 is the
word's least significant bit (log entry 18). -/
def tableWord (nbits w : Nat) : Word := BitVec.ofNat 16 (w % 2 ^ min nbits Machine.config.wordBits)

/-- The instruction the decoder reads from an instruction of the opcode table whose bits are `w`: the word is laid out
as the block reads it, first byte most significant. -/
def decodeTableWord (nbits w : Nat) : Option Instr :=
  match decode [firstByte (tableWord nbits w), secondByte (tableWord nbits w)] with
  | .ok (i, _) => some i
  | .error _ => none

end Sys2Proof
end

