-- ==== Sys2Proof/Machine/Operands.lean ====
section
/-!
DEFINITION. The two lookup tables, the operand multiplexer and the renderings: `41_opcode_lut.md`, `42_register_lut.md`
and `43_field_decoder.md` R127. Each takes the configuration record as an argument, so that a claim can be made for any
register table (D4).
-/

namespace Sys2Proof.Machine

/-- `OpcodeLUT(v)` (R90), on every natural number (R91, D9). -/
def opcodeLUT (c : Config) (v : Nat) : Opcode :=
  if v = c.opcodeMov.toNat then .moveRegister else .unrecognized

/-- The accessor `opcode(word)`, which answers the typed Opcode (R121). -/
def opcodeOf (c : Config) (word : Word) : Opcode := opcodeLUT c (opcodeField word).toNat

/-- `RegLUT(w, f)` (R100): an index above 7 is an error, not a masked lookup (R103, D8, N7). -/
def regLUT (c : Config) (w : Bit) (f : Nat) : Except DecodeError Register :=
  if h : f < 8 then .ok (c.regName w ⟨f, h⟩) else .error .invalidRegister

/-- `select_operands(d, reg_name, rm_name)`, answering (destination, source) (R127). -/
def selectOperands (d : Bit) (regName rmName : Register) : Register × Register :=
  match d with
  | .bit1 => (regName, rmName)
  | .bit0 => (rmName, regName)

/-- The rendering of an Opcode (R92). The placeholder is for display only. -/
def renderOpcode (c : Config) (op : Opcode) : Text :=
  match op with
  | .moveRegister => c.mnemonicMov
  | .unrecognized => c.placeholderUnrecognized

/-- The rendering of a Register, two lowercase letters (R106). -/
def renderRegister (r : Register) : Text :=
  match r with
  | .al => ['a', 'l']
  | .cl => ['c', 'l']
  | .dl => ['d', 'l']
  | .bl => ['b', 'l']
  | .ah => ['a', 'h']
  | .ch => ['c', 'h']
  | .dh => ['d', 'h']
  | .bh => ['b', 'h']
  | .ax => ['a', 'x']
  | .cx => ['c', 'x']
  | .dx => ['d', 'x']
  | .bx => ['b', 'x']
  | .sp => ['s', 'p']
  | .bp => ['b', 'p']
  | .si => ['s', 'i']
  | .di => ['d', 'i']

/-- The width set a name is of: `bit0` for a byte-width name, `bit1` for a word-width name (`10_state.md` R13,
`42_register_lut.md` R104). -/
def registerWidth (r : Register) : Bit :=
  match r with
  | .al | .cl | .dl | .bl | .ah | .ch | .dh | .bh => .bit0
  | .ax | .cx | .dx | .bx | .sp | .bp | .si | .di => .bit1

/-- The word-width name a byte-width name is a half of, and which half (R105). It has no effect in this block, which
stores no register contents. PRESUMED (G3, log entry 17). -/
def registerAlias (r : Register) : Option (Register × Half) :=
  match r with
  | .al => some (.ax, .low)
  | .ah => some (.ax, .high)
  | .cl => some (.cx, .low)
  | .ch => some (.cx, .high)
  | .dl => some (.dx, .low)
  | .dh => some (.dx, .high)
  | .bl => some (.bx, .low)
  | .bh => some (.bx, .high)
  | .ax | .cx | .dx | .bx | .sp | .bp | .si | .di => none

/-- Characters as bytes, one each (`TEXT_ENCODING` of `00_scope.md` R5, D5). PRESUMED (log entry 5). -/
def encodeText (c : Config) (t : Text) : List Byte := t.map c.textEncoding

end Sys2Proof.Machine
end

