-- ==== Sys2Proof/Machine/Format.lean ====
section
/-!
DEFINITION. CORE: the mnemonic formatter (`44_formatter.md`) and the block's ports (`10_state.md` R20 to R22).
-/

namespace Sys2Proof.Machine

/-- What CORE gives for a word it accepts: the two operands and the text. -/
structure Formatted where
  dst : Register
  src : Register
  text : Text
deriving DecidableEq, Repr

/-- Step 5's text: mnemonic, one space, destination, comma and one space, source (R144, `30_encoding.md` R58). -/
def composeText (c : Config) (op : Opcode) (dst src : Register) : Text :=
  renderOpcode c op ++ ' ' :: (renderRegister dst ++ (c.operandSeparator ++ renderRegister src))

/-- Steps 4 and 5: the MOD check (R143), then the operands chosen and the text composed (R144). -/
def checkModAndCompose (c : Config) (op : Opcode) (d : Bit) (mod : BitVec 2) (regName rmName : Register) :
    Except DecodeError Formatted :=
  if mod ≠ c.modRegDirect then .error .invalidInstruction
  else
    .ok
      { dst := (selectOperands d regName rmName).1
        src := (selectOperands d regName rmName).2
        text := composeText c op (selectOperands d regName rmName).1 (selectOperands d regName rmName).2 }

/-- The five steps of R140 in their order, the first failure returned unchanged (R148). The two register indices are
natural numbers, so that the propagation path of step 3 exists (R142, R185); in the composed block they are three bits
wide. -/
def formatSteps (c : Config) (op : Opcode) (d w : Bit) (mod : BitVec 2) (reg rm : Nat) : Except DecodeError Formatted :=
  match op with
  | .unrecognized => .error .invalidInstruction
  | .moveRegister =>
    match regLUT c w reg with
    | .error e => .error e
    | .ok regName =>
      match regLUT c w rm with
      | .error e => .error e
      | .ok rmName => checkModAndCompose c .moveRegister d mod regName rmName

/-- The five steps on the six fields of a word. -/
def formatFields (c : Config) (opcode : BitVec 6) (d w : Bit) (mod : BitVec 2) (reg rm : BitVec 3) :
    Except DecodeError Formatted :=
  formatSteps c (opcodeLUT c opcode.toNat) d w mod reg.toNat rm.toNat

/-- The text of a result of CORE. -/
def textOf (r : Except DecodeError Formatted) : Except DecodeError Text :=
  match r with
  | .ok f => .ok f.text
  | .error e => .error e

/-- CORE's result for a word, operands and text together. -/
def formatWord (c : Config) (word : Word) : Except DecodeError Formatted :=
  formatFields c (opcodeField word) (fieldD word) (fieldW word) (fieldMod word) (fieldReg word) (fieldRm word)

/-- `format_instruction(word)` (R140). -/
def formatInstruction (c : Config) (word : Word) : Except DecodeError Text := textOf (formatWord c word)

/-- `decode(b0, b1)`, the block's top-level function (R147). -/
def coreDecode (c : Config) (b0 b1 : Byte) : Except DecodeError Text :=
  formatInstruction c (wordOfBytesIn c.wordByteOrder b0 b1)

/-! ## The ports -/

/-- The port `status` (`10_state.md` R21). -/
inductive Status where
  | ok
  | invalidInstruction
  | invalidRegister
deriving DecidableEq, Repr

/-- The status of a result of CORE. -/
def statusOf (r : Except DecodeError Formatted) : Status :=
  match r with
  | .ok _ => .ok
  | .error .invalidInstruction => .invalidInstruction
  | .error .invalidRegister => .invalidRegister

/-- CORE's output ports (R21). `dst`, `src` and `text` have a value only when `status` is `ok` (R22, D14). -/
structure Ports where
  word : Word
  op : Opcode
  d : Bit
  w : Bit
  mod : BitVec 2
  reg : BitVec 3
  rm : BitVec 3
  status : Status
  dst : Option Register
  src : Option Register
  text : Option Text
deriving DecidableEq, Repr

/-- The operands and text of a result, absent where it is an error (R22). -/
def formattedOf (r : Except DecodeError Formatted) : Option Formatted :=
  match r with
  | .ok f => some f
  | .error _ => none

/-- CORE's outputs for a word. -/
def portsOfWord (c : Config) (word : Word) : Ports where
  word := word
  op := opcodeOf c word
  d := fieldD word
  w := fieldW word
  mod := fieldMod word
  reg := fieldReg word
  rm := fieldRm word
  status := statusOf (formatWord c word)
  dst := (formattedOf (formatWord c word)).map (·.dst)
  src := (formattedOf (formatWord c word)).map (·.src)
  text := (formattedOf (formatWord c word)).map (·.text)

/-- CORE's outputs as a function of its two input bytes and of nothing else (R10, R20). -/
def ports (c : Config) (b0 b1 : Byte) : Ports := portsOfWord c (wordOfBytesIn c.wordByteOrder b0 b1)

end Sys2Proof.Machine
end

