-- ==== Sys2Proof/Machine/State.lean ====
section
/-!
DEFINITION. The state of the machine (`10_state.md` R17, R25): the sequencer's position, listing and outcome, and the
input byte sequence it reads. CORE holds no state (R10), so nothing of it stands here.
-/

namespace Sys2Proof.Machine

/-- The input byte sequence `B` (`20_memory.md` R30): how many bytes it has, and its bytes by address. Addresses rise
strictly, all lie below `len`, and no listed byte equals what an unlisted address reads as (`Memory.wf`), so equal
sequences are equal data. DESIGN CHOICE (log entry 1). -/
structure Memory where
  len : Nat
  cells : List Host.Cell
deriving DecidableEq, Repr

/-- How a run stands (R17). -/
inductive RunOutcome where
  /-- The sequencer has an enabled step. -/
  | running
  /-- Every chunk decoded; the result is the listing (`45_sequencer.md` R164). -/
  | done
  /-- A chunk failed or a byte was left over; the result is the error alone (R166, R167). -/
  | failed (e : StreamError)
deriving DecidableEq, Repr

/-- The state: `B`, and the three items of R17. -/
structure State where
  /-- `B`, read-only (R30, R40). In the state because a step has no other argument (log entry 2). -/
  input : Memory
  /-- The index in `B` of the next unread byte, the spec's `pc` (R17, `00_scope.md` R7). -/
  pos : Nat
  /-- The text accumulated so far (R17). -/
  listing : Text
  /-- Running, done or failed (R17). -/
  outcome : RunOutcome
deriving DecidableEq, Repr

/-- Why a step has no next state. The spec's errors are not among these: they are next states with `outcome` failed. -/
inductive Fault where
  /-- Raised by a step from, or an instruction run in, a state whose run is done: no step is enabled there
  (`45_sequencer.md` R161, R164). Safe: the model stops where the spec takes no further step (log entry 8). -/
  | finished
  /-- Raised by a step from, or an instruction run in, a state whose run has failed with this error: no step is enabled
  there (R166, `60_exceptions.md` R188). Safe, as for `finished` (log entry 8). -/
  | aborted (e : StreamError)
deriving DecidableEq, Repr

/-- Why an instruction is given no meaning. -/
inductive Refusal where
  /-- Raised by a dispatch arm whose instruction has no meaning in the model. Safe: nothing is claimed of it. No arm
  raises it: every row of the opcode table has its meaning. -/
  | notModelled (mnemonic : String)
deriving DecidableEq, Repr

/-- The state at the start of a top-level operation (R25, `70_reset_and_hazards.md` R200), with no input handed over
yet: the empty sequence (DESIGN CHOICE, log entry 2). -/
def State.reset : State where
  input := { len := 0, cells := [] }
  pos := 0
  listing := listingStart config
  outcome := .running

end Sys2Proof.Machine
end

