-- ==== Sys2Proof/Machine/Ops.lean ====
section
/-!
DEFINITION. The named operations: reading the input sequence, laying it out (the external collaborator's part), fetching
a chunk, and the ways a step changes the state: a line appended, an error raised, the run finished.
-/

namespace Sys2Proof.Machine

/-! ## The input byte sequence -/

/-- What an address below `len` that no cell lists holds: the byte zero. DESIGN CHOICE (log entry 1). -/
def unlistedByte : Byte := 0#8

/-- The byte the cells give an address. -/
def cellsGet : List Host.Cell → Nat → Byte
  | [], _ => unlistedByte
  | (k, v) :: rest, a => if k = a then v else cellsGet rest a

/-- The cells with one address's byte replaced, the canonical form kept. -/
def cellsSet : List Host.Cell → Nat → Byte → List Host.Cell
  | [], a, b => if b = unlistedByte then [] else [(a, b)]
  | (k, v) :: rest, a, b =>
    if a < k then
      if b = unlistedByte then (k, v) :: rest else (a, b) :: (k, v) :: rest
    else if a = k then
      if b = unlistedByte then rest else (a, b) :: rest
    else (k, v) :: cellsSet rest a b

/-- Are the addresses strictly rising, from `lo` on and below `hi`, and is no listed byte the unlisted one? -/
def cellsWf (lo hi : Nat) : List Host.Cell → Bool
  | [] => true
  | (k, v) :: rest => decide (lo ≤ k) && decide (k < hi) && decide (v ≠ unlistedByte) && cellsWf (k + 1) hi rest

/-- The cells of a byte sequence laid out from an address on. -/
def cellsOfBytes (base : Nat) : List Byte → List Host.Cell
  | [] => []
  | b :: rest => if b = unlistedByte then cellsOfBytes (base + 1) rest else (base, b) :: cellsOfBytes (base + 1) rest

/-- The canonical form of the input sequence. -/
def Memory.wf (m : Memory) : Bool := cellsWf 0 m.len m.cells

/-- `B[addr]`, and nothing where there is no such byte (`20_memory.md` R30, R31). -/
def Memory.read (m : Memory) (addr : Nat) : Option Byte :=
  if addr < m.len then some (cellsGet m.cells addr) else none

/-- `MemRead(addr, n)`: the bytes `B[addr]` to `B[addr + n - 1]`, lowest index first, defined only when they all exist
(R31). -/
def Memory.memRead (m : Memory) (addr n : Nat) : Option (List Byte) :=
  if addr + n ≤ m.len then some ((List.range n).map fun k => cellsGet m.cells (addr + k)) else none

/-- The input sequence as a list. -/
def Memory.toBytes (m : Memory) : List Byte := (List.range m.len).map fun k => cellsGet m.cells k

/-! ## The external collaborator's part: laying out a sequence before a run. No step calls these (R30, R40). -/

/-- The input sequence made of these bytes. -/
def Memory.ofBytes (bs : List Byte) : Memory where
  len := bs.length
  cells := cellsOfBytes 0 bs

/-- The sequence made at least `n` bytes long. -/
def Memory.extend (m : Memory) (n : Nat) : Memory := { m with len := max m.len n }

/-- The sequence with one byte replaced; an address it does not have is left alone. -/
def Memory.write (m : Memory) (addr : Nat) (b : Byte) : Memory :=
  if addr < m.len then { m with cells := cellsSet m.cells addr b } else m

/-- The start of a top-level operation on `B`: everything as at reset, nothing carried over (`10_state.md` R25). -/
def State.load (bs : List Byte) : State := { State.reset with input := Memory.ofBytes bs }

/-! ## What the sequencer reads -/

/-- What stands at the position: nothing, one byte left over, or a chunk. -/
inductive Fetched where
  | nothing
  | dangling
  | chunk (b0 b1 : Byte)
deriving DecidableEq, Repr

/-- How many bytes are unread, `len(B) - pos` (`45_sequencer.md` R161). In a state no run reaches, whose position is
beyond the end, this is zero (log entry 11). -/
def remaining (s : State) : Nat := s.input.len - s.pos

/-- The three cases of R161, in its order; with two bytes or more it is `MemRead(pos, 2)`. -/
def fetch (s : State) : Fetched :=
  match remaining s with
  | 0 => .nothing
  | 1 => .dangling
  | _ + 2 => .chunk (cellsGet s.input.cells s.pos) (cellsGet s.input.cells (s.pos + 1))

/-! ## What a step does -/

/-- Taking an error: `outcome` becomes failed and nothing else changes. Nothing is saved, control goes nowhere, and
there is no return from it (`60_exceptions.md` R184, R188). -/
def raise (e : StreamError) (s : State) : State := { s with outcome := .failed e }

/-- The normal end of a run (`45_sequencer.md` R164). -/
def finish (s : State) : State := { s with outcome := .done }

/-- A decoded chunk: its line, a line break and the text in this hardware's layout, goes onto the listing (R163), and the
position moves past the chunk's `BYTES_PER_INSTR` bytes, two (R165). -/
def appendLine (text : Text) (s : State) : State :=
  { s with listing := s.listing ++ listingLine config text, pos := s.pos + config.bytesPerInstr }

/-- Handing CORE's result to the sequencer: R161's case distinction on `decode(b0, b1)`, enabled only while the run
goes on. -/
def deliver (r : Except DecodeError Text) (s : State) : Host.Outcome State Fault Refusal :=
  match s.outcome with
  | .running =>
    match r with
    | .ok text => .next (appendLine text s)
    | .error e => .next (raise (.decode e) s)
  | .done => .fault .finished
  | .failed e => .fault (.aborted e)

/-- The result of the top-level operation: the whole listing of a run that is done (R164), the error alone of one that
failed, its partial listing withheld (R166), and none yet while it runs. -/
def State.result (s : State) : Option (Except StreamError Text) :=
  match s.outcome with
  | .running => none
  | .done => some (.ok s.listing)
  | .failed e => some (.error e)

end Sys2Proof.Machine
end

