-- ==== Sys2Proof/Machine/Illegal.lean ====
section
/-!
DEFINITION. The meanings of the four illegal rows of the opcode table: the formatter runs on the row's fields and its
error ends the run (`30_encoding.md` R56, `45_sequencer.md` R166). The error is a defined result of the block, a next
state (`60_exceptions.md` R189; log entry 9).
-/

namespace Sys2Proof.Machine

/-- Opcode `100010` with MOD `00` (`44_formatter.md` R143). -/
def execIllegalMod00 (d w : Bit) (reg rm : BitVec 3) (s : State) : Host.Outcome State Fault Refusal :=
  deliver (textOf (formatFields config 0b100010#6 d w 0b00#2 reg rm)) s

/-- Opcode `100010` with MOD `01` (R143). -/
def execIllegalMod01 (d w : Bit) (reg rm : BitVec 3) (s : State) : Host.Outcome State Fault Refusal :=
  deliver (textOf (formatFields config 0b100010#6 d w 0b01#2 reg rm)) s

/-- Opcode `100010` with MOD `10` (R143). -/
def execIllegalMod10 (d w : Bit) (reg rm : BitVec 3) (s : State) : Host.Outcome State Fault Refusal :=
  deliver (textOf (formatFields config 0b100010#6 d w 0b10#2 reg rm)) s

/-- Any other opcode field, whatever the other fields hold (R141). -/
def execIllegalOpcode (opcode : BitVec 6) (d w : Bit) (mod : BitVec 2) (reg rm : BitVec 3) (s : State) :
    Host.Outcome State Fault Refusal :=
  deliver (textOf (formatFields config opcode d w mod reg rm)) s

end Sys2Proof.Machine
end

