-- ==== Sys2Proof/Machine/Mov.lean ====
section
/-!
DEFINITION. The meaning of the one instruction of the decoded set, `mov`.
-/

namespace Sys2Proof.Machine

/-- `mov` (`44_formatter.md` R145): the formatter runs on the row's opcode `100010` and MOD `11`, and its text becomes
the next line. No register is read or written: there is none (`10_state.md` R12). -/
def execMov (d w : Bit) (reg rm : BitVec 3) (s : State) : Host.Outcome State Fault Refusal :=
  deliver (textOf (formatFields config 0b100010#6 d w 0b11#2 reg rm)) s

end Sys2Proof.Machine
end

