-- ==== Sys2Proof/Machine/Dispatch.lean ====
section
/-!
DEFINITION. One arm for each row of `spec/opcode_table.json`, each one call of that row's meaning.
-/

namespace Sys2Proof.Machine

def exec (i : Instr) (s : State) : Host.Outcome State Fault Refusal :=
  match i with
  | .mov d w reg rm => Sys2Proof.Machine.execMov d w reg rm s
  | .illegalMod00 d w reg rm => Sys2Proof.Machine.execIllegalMod00 d w reg rm s
  | .illegalMod01 d w reg rm => Sys2Proof.Machine.execIllegalMod01 d w reg rm s
  | .illegalMod10 d w reg rm => Sys2Proof.Machine.execIllegalMod10 d w reg rm s
  | .illegalOpcode opcode d w mod reg rm => Sys2Proof.Machine.execIllegalOpcode opcode d w mod reg rm s

end Sys2Proof.Machine
end

