-- ==== Sys2Proof/Machine/Step.lean ====
section
/-!
DEFINITION. `seq_step` (`45_sequencer.md` R161), and the word of the opcode table placed where the next step fetches.
-/

namespace Sys2Proof.Machine

/-- `seq_step` (R161): enabled only while the run goes on; with nothing left the run is done, with one byte left it fails,
and otherwise the chunk at the position is decoded and run. -/
def step (s : State) : Host.Outcome State Fault Refusal :=
  match s.outcome with
  | .running =>
    match fetch s with
    | .nothing => .next (finish s)
    | .dangling => .next (raise config.oddPolicy s)
    | .chunk b0 b1 => exec (decodeWord (wordOfBytes b0 b1)) s
  | .done => .fault .finished
  | .failed e => .fault (.aborted e)

/-- The state with the table's word laid out at the position, the sequence made long enough to hold it and the run going
on, so that the next step runs it (log entry 18). It stands for the external collaborator's handing over of `B`. -/
def State.withFetchWord (s : State) (nbits w : Nat) : State :=
  { s with
    input :=
      ((s.input.extend (s.pos + config.bytesPerInstr)).write s.pos (firstByte (tableWord nbits w))).write (s.pos + 1)
        (secondByte (tableWord nbits w))
    outcome := .running }

end Sys2Proof.Machine
end

