-- ==== Sys2Proof/Machine/Stream.lean ====
section
/-!
DEFINITION. `decode_stream` (`45_sequencer.md` R168): the top-level operation as one function of the whole byte
sequence, apart from the machine that runs it step by step.
-/

namespace Sys2Proof.Machine

/-- A chunk's result before the lines of the chunks after it: its own error comes first, then theirs, and otherwise its
line stands before theirs (R163, `60_exceptions.md` R186). -/
def addLine (c : Config) (r : Except DecodeError Text) (later : Except StreamError Text) : Except StreamError Text :=
  match r with
  | .error e => .error (.decode e)
  | .ok text =>
    match later with
    | .error e => .error e
    | .ok lines => .ok (listingLine c text ++ lines)

/-- The lines of a byte sequence, each a text in the listing's layout (R163), or the error of the first position that
fails (`60_exceptions.md` R186). -/
def streamLines (c : Config) : List Byte → Except StreamError Text
  | [] => .ok []
  | [_] => .error c.oddPolicy
  | b0 :: b1 :: rest => addLine c (coreDecode c b0 b1) (streamLines c rest)

/-- `decode_stream(B)` (R168): the start of the listing, then the lines. -/
def decodeStream (c : Config) (bs : List Byte) : Except StreamError Text :=
  match streamLines c bs with
  | .ok lines => .ok (listingStart c ++ lines)
  | .error e => .error e

end Sys2Proof.Machine
end

