-- ==== Sys2Proof/Safety.lean ====
section
/-!
DEFINITION. What a state of a run looks like, in the terms the claims use.
-/

namespace Sys2Proof.Machine

/-- The listing is exactly what `decode_stream` gives for the bytes below the position: every chunk there decoded, one
line each, in order (`45_sequencer.md` R163, `60_exceptions.md` R187). -/
abbrev State.listingIsOfBytesRead (s : State) : Prop :=
  decodeStream config (s.input.toBytes.take s.pos) = .ok s.listing

/-- The position stands where the outcome says: at the end of the input when the run is done (R164), at a last single
byte when it failed for one (R167), at a chunk that fails with that error when it failed for a chunk (R166), and
otherwise on an even index within the input (R165). -/
def State.outcomeFitsPosition (s : State) : Bool :=
  match s.outcome with
  | .running => true
  | .done => decide (s.pos = s.input.len)
  | .failed .malformedInput => decide (s.pos + 1 = s.input.len)
  | .failed (.decode e) =>
    decide (s.pos + 2 ≤ s.input.len) &&
      decide (coreDecode config (cellsGet s.input.cells s.pos) (cellsGet s.input.cells (s.pos + 1)) = .error e)

/-- The invariant of a run: the input is in canonical form and of an admitted length (R5, D13), the position is even and
within it, the listing is that of the bytes read, and the outcome fits the position. -/
abbrev State.Inv (s : State) : Prop :=
  s.input.wf = true ∧ lengthAdmitted config s.input.len = true ∧ s.pos ≤ s.input.len ∧ s.pos % 2 = 0 ∧
    s.listingIsOfBytesRead ∧ s.outcomeFitsPosition = true

/-- The run goes on and at least one whole chunk is unread: the condition under which R161 decodes a chunk. -/
abbrev State.chunkReady (s : State) : Prop := s.outcome = .running ∧ s.pos + 2 ≤ s.input.len

end Sys2Proof.Machine
end

