-- ==== Sys2Proof/Certificates/Slice0/Obligations.lean ====
section
/-!
DEFINITION. The statements for the provers. Each docstring names the rule of spec/ it formalises, or says that it rests
on a decision of the spec or of the model and names the log entry.
-/

open Sys2Proof Sys2Proof.Machine

/-! ## Words, fields, encoding -/

/-- R120: the first byte is the word's bits 15:8 and the second its bits 7:0; every word is formed by exactly one pair. -/
def Obligations.WordFromBytesPutsFirstByteHigh : Prop :=
  (∀ b0 b1 : Byte, (wordOfBytes b0 b1).extractLsb' 8 8 = b0 ∧ (wordOfBytes b0 b1).extractLsb' 0 8 = b1) ∧
    ∀ word : Word, ∃! p : Byte × Byte, wordOfBytes p.1 p.2 = word

/-- R121 to R126: each accessor reads its own bits of the word, given by the source's positions counted from the most
significant bit (`getMsbD`) and by the spec's slices counted from the least significant; the opcode accessor answers the
table's variant for the field. -/
def Obligations.AccessorsReadTheirFields : Prop :=
  ∀ word : Word,
    (opcodeField word = word.extractLsb' 10 6 ∧ (∀ i < 6, (opcodeField word).getMsbD i = word.getMsbD i) ∧
        ∀ c, opcodeOf c word = opcodeLUT c (opcodeField word).toNat) ∧
      (fieldD word = Bit.fromBool (word.getLsbD 9) ∧ fieldD word = Bit.fromBool (word.getMsbD 6)) ∧
      (fieldW word = Bit.fromBool (word.getLsbD 8) ∧ fieldW word = Bit.fromBool (word.getMsbD 7)) ∧
      (fieldMod word = word.extractLsb' 6 2 ∧ ∀ i < 2, (fieldMod word).getMsbD i = word.getMsbD (8 + i)) ∧
      (fieldReg word = word.extractLsb' 3 3 ∧ ∀ i < 3, (fieldReg word).getMsbD i = word.getMsbD (10 + i)) ∧
      (fieldRm word = word.extractLsb' 0 3 ∧ ∀ i < 3, (fieldRm word).getMsbD i = word.getMsbD (13 + i))

/-- The six fields tile the word, an inference the spec marks as its own (R128): the word is recovered from its fields, and
a word packed from any fields has exactly those fields. -/
def Obligations.FieldsTileTheWord : Prop :=
  (∀ word : Word,
      packFields (opcodeField word) (fieldD word) (fieldW word) (fieldMod word) (fieldReg word) (fieldRm word) =
        word) ∧
    ∀ (opcode : BitVec 6) (d w : Bit) (mod : BitVec 2) (reg rm : BitVec 3),
      opcodeField (packFields opcode d w mod reg rm) = opcode ∧ fieldD (packFields opcode d w mod reg rm) = d ∧
        fieldW (packFields opcode d w mod reg rm) = w ∧ fieldMod (packFields opcode d w mod reg rm) = mod ∧
        fieldReg (packFields opcode d w mod reg rm) = reg ∧ fieldRm (packFields opcode d w mod reg rm) = rm

/-- Decoding the encoding of any well-formed instruction of any row, whatever bytes follow it, gives that instruction
back and leaves those bytes. -/
def Obligations.DecodeOfEncodeGivesInstr : Prop :=
  ∀ (i : Instr) (rest : List Byte), i.wf = true → decode (encode i ++ rest) = .ok (i, rest)

/-- Every word decodes to a well-formed instruction, whose encoding is the word's two bytes. -/
def Obligations.EncodeOfDecodeGivesBytes : Prop :=
  ∀ b0 b1 : Byte,
    (decodeWord (wordOfBytes b0 b1)).wf = true ∧ encode (decodeWord (wordOfBytes b0 b1)) = [b0, b1]

/-- Words written out bit by bit from the encodings of R55 and R56 and of `95_test_vectors.md` decode to the instruction
they stand for. -/
def Obligations.WrittenOutWordsDecode : Prop :=
  decode [0b10001001#8, 0b11011001#8] = .ok (.mov .bit0 .bit1 0b011#3 0b001#3, []) ∧
    decode [0b10001011#8, 0b11110011#8] = .ok (.mov .bit1 .bit1 0b110#3 0b011#3, []) ∧
    decode [0b10001011#8, 0b00011110#8] = .ok (.illegalMod00 .bit1 .bit1 0b011#3 0b110#3, []) ∧
    decode [0b10001010#8, 0b01111111#8] = .ok (.illegalMod01 .bit1 .bit0 0b111#3 0b111#3, []) ∧
    decode [0b10001000#8, 0b10111111#8] = .ok (.illegalMod10 .bit0 .bit0 0b111#3 0b111#3, []) ∧
    decode [0b10111000#8, 0b00000001#8] = .ok (.illegalOpcode 0b101110#6 .bit0 .bit0 0b00#2 0b000#3 0b001#3, [])

/-! ## CORE -/

/-- R90: of the sixty-four opcode values exactly `100010` gives `MoveRegister`, and every other gives `Unrecognized`. -/
def Obligations.OpcodeTableKnowsOneCode : Prop :=
  ∀ v : BitVec 6,
    opcodeLUT config v.toNat = if v = 0b100010#6 then Opcode.moveRegister else Opcode.unrecognized

/-- R100: an index from 0 to 7 gives the table's name, and every other index the invalid-register error, for any
register table. -/
def Obligations.RegLutGivesNameOrError : Prop :=
  ∀ (c : Config) (w : Bit),
    (∀ f : Fin 8, regLUT c w f.val = .ok (c.regName w f)) ∧
      ∀ f : Nat, 7 < f → regLUT c w f = .error .invalidRegister

/-- The register table entry by entry: the three entries the source's examples fix (R102), the other thirteen as in R101,
which are the spec's decision D4 (PRESUMED, log entry 4). The table has no overlap and no gap (R104), and the width flag
chooses between byte-width and word-width names. -/
def Obligations.RegisterTableIsOneToOne : Prop :=
  (config.regName .bit0 0 = .al ∧ config.regName .bit1 1 = .cx ∧ config.regName .bit1 3 = .bx) ∧
    (config.regName .bit0 1 = .cl ∧ config.regName .bit0 2 = .dl ∧ config.regName .bit0 3 = .bl ∧
      config.regName .bit0 4 = .ah ∧ config.regName .bit0 5 = .ch ∧ config.regName .bit0 6 = .dh ∧
      config.regName .bit0 7 = .bh ∧ config.regName .bit1 0 = .ax ∧ config.regName .bit1 2 = .dx ∧
      config.regName .bit1 4 = .sp ∧ config.regName .bit1 5 = .bp ∧ config.regName .bit1 6 = .si ∧
      config.regName .bit1 7 = .di) ∧
    (∀ w w' i i', config.regName w i = config.regName w' i' → w = w' ∧ i = i') ∧
    (∀ r : Register, ∃ w i, config.regName w i = r) ∧ ∀ w i, registerWidth (config.regName w i) = w

/-- R106: each register renders as the two lowercase letters of its name, and no two render alike. -/
def Obligations.RegistersRenderAsTheirNames : Prop :=
  Register.all.map renderRegister =
      ["al", "cl", "dl", "bl", "ah", "ch", "dh", "bh", "ax", "cx", "dx", "bx", "sp", "bp", "si", "di"].map
        String.toList ∧
    (∀ r, r ∈ Register.all) ∧ (∀ r, (renderRegister r).length = 2) ∧
    ∀ r r', renderRegister r = renderRegister r' → r = r'

/-- R127: on every word of the `mov` row and for any register table, if D is true REG is the destination and R/M the
source, and if D is false the other way round; both names come from the one width flag. -/
def Obligations.DirectionChoosesDestination : Prop :=
  ∀ (c : Config) (w : Bit) (reg rm : BitVec 3),
    (∃ text, formatFields c c.opcodeMov .bit1 w c.modRegDirect reg rm =
        .ok { dst := c.regName w reg.toFin, src := c.regName w rm.toFin, text := text }) ∧
      ∃ text, formatFields c c.opcodeMov .bit0 w c.modRegDirect reg rm =
        .ok { dst := c.regName w rm.toFin, src := c.regName w reg.toFin, text := text }

/-- R141: a word whose opcode field is not the supported one fails with `InvalidInstruction`, whatever its other bits
hold, for any register table. -/
def Obligations.OtherOpcodeIsInvalidInstruction : Prop :=
  ∀ (regName : Bit → Fin 8 → Register) (word : Word),
    opcodeField word ≠ 0b100010#6 →
      formatInstruction { config with regName := regName } word = .error .invalidInstruction

/-- R143: a word with the supported opcode and a MOD other than `11` fails with `InvalidInstruction`, whatever D, W, REG
and R/M hold, for any register table. -/
def Obligations.OtherModIsInvalidInstruction : Prop :=
  ∀ (regName : Bit → Fin 8 → Register) (word : Word),
    opcodeField word = 0b100010#6 → fieldMod word ≠ 0b11#2 →
      formatInstruction { config with regName := regName } word = .error .invalidInstruction

/-- The set of words that decode is `(word & 0xFCC0) == 0x88C0` (R55 and R146, marked by the spec as its own inference):
such a word gives a text and every other one `InvalidInstruction`, for any register table. -/
def Obligations.DecodableWordsAreTheMaskedOnes : Prop :=
  ∀ (regName : Bit → Fin 8 → Register) (word : Word),
    if word &&& 0xFCC0#16 = 0x88C0#16 then
      ∃ text, formatInstruction { config with regName := regName } word = .ok text
    else formatInstruction { config with regName := regName } word = .error .invalidInstruction

/-- R58: the text of a word that decodes is the mnemonic, one space, the destination's name, comma and one space, the
source's name, with nothing before or after; every name is two letters. It holds for any register table. -/
def Obligations.OkTextHasTheGrammar : Prop :=
  ∀ (regName : Bit → Fin 8 → Register) (word : Word) (f : Formatted),
    formatWord { config with regName := regName } word = .ok f →
      formatInstruction { config with regName := regName } word = .ok f.text ∧
        f.text = "mov".toList ++ [' '] ++ renderRegister f.dst ++ [',', ' '] ++ renderRegister f.src ∧
        (renderRegister f.dst).length = 2 ∧ (renderRegister f.src).length = 2

/-- R182: no word and no byte sequence makes the formatter, the stream function or a step answer `InvalidRegister`, and a
direct lookup with an index above 7 does. -/
def Obligations.InvalidRegisterIsUnreachable : Prop :=
  (∀ (c : Config) (word : Word), formatInstruction c word ≠ .error .invalidRegister) ∧
    (∀ bs : List Byte, decodeStream config bs ≠ .error (.decode .invalidRegister)) ∧
    (∀ s t : State, step s = .next t → t.outcome ≠ .failed (.decode .invalidRegister)) ∧
    ∀ (c : Config) (w : Bit) (f : Nat), 7 < f → regLUT c w f = .error .invalidRegister

/-- R185: the checks are made in the order opcode, REG index, R/M index, MOD, and the first that fails decides the error;
where none fails there is a text. For an actual word the two index checks never fail, so its error is always
`InvalidInstruction`. -/
def Obligations.ChecksAreMadeInOrder : Prop :=
  (∀ (c : Config) (word : Word) (e : DecodeError), formatInstruction c word = .error e → e = .invalidInstruction) ∧
  ∀ (c : Config) (op : Opcode) (d w : Bit) (mod : BitVec 2) (reg rm : Nat),
    if op = .unrecognized then formatSteps c op d w mod reg rm = .error .invalidInstruction
    else if 7 < reg then formatSteps c op d w mod reg rm = .error .invalidRegister
    else if 7 < rm then formatSteps c op d w mod reg rm = .error .invalidRegister
    else if mod ≠ c.modRegDirect then formatSteps c op d w mod reg rm = .error .invalidInstruction
    else ∃ f, formatSteps c op d w mod reg rm = .ok f

/-- Flipping bit 9 of a word that decodes swaps the two operands in the text and changes nothing else: the word still
decodes, destination and source are exchanged, and the text is that of the exchanged operands, for any register table (R127,
marked by the spec as its own inference). -/
def Obligations.FlippingDirectionSwapsOperands : Prop :=
  ∀ (regName : Bit → Fin 8 → Register) (word : Word) (f : Formatted),
    formatWord { config with regName := regName } word = .ok f →
      f.text = "mov".toList ++ [' '] ++ renderRegister f.dst ++ [',', ' '] ++ renderRegister f.src ∧
        formatWord { config with regName := regName } (word ^^^ 0x0200#16) =
          .ok
            { dst := f.src
              src := f.dst
              text := "mov".toList ++ [' '] ++ renderRegister f.src ++ [',', ' '] ++ renderRegister f.dst }

/-- The 256 encodings give 128 texts, two words each (R145, marked by the spec as its own inference; it rests on the
table of R101, log entry 4): two words that decode have the same text exactly when they are the same word, or one is the
other with D flipped and REG and R/M exchanged. -/
def Obligations.EachTextHasTwoEncodings : Prop :=
  ∀ word word' : Word, word &&& 0xFCC0#16 = 0x88C0#16 → word' &&& 0xFCC0#16 = 0x88C0#16 →
    (formatInstruction config word = formatInstruction config word' ↔
      word' = word ∨
        word' = packFields 0b100010#6 (Bit.not (fieldD word)) (fieldW word) 0b11#2 (fieldRm word) (fieldReg word))

/-- The source's five worked examples (`95_test_vectors.md` section 1) for every register table that has the three entries
the source fixes (R102). That the line break in the strings of S1 to S3 is the one character U+000A is the spec's decision
D5 (PRESUMED, log entry 5), and the exact string of S5 is its decision D7 (DESIGN CHOICE, log entry 7). -/
def Obligations.WorkedExamplesHoldForAnyTable : Prop :=
  ∀ regName : Bit → Fin 8 → Register,
    regName .bit0 0 = .al → regName .bit1 1 = .cx → regName .bit1 3 = .bx →
      decodeStream { config with regName := regName } [0x89#8, 0xD9#8] = .ok "bits 16\nmov cx, bx".toList ∧
        decodeStream { config with regName := regName } [0x88#8, 0xC0#8] = .ok "bits 16\nmov al, al".toList ∧
        decodeStream { config with regName := regName } [0x8A#8, 0xC0#8] = .ok "bits 16\nmov al, al".toList ∧
        decodeStream { config with regName := regName } [0xFF#8, 0xFF#8] = .error (.decode .invalidInstruction) ∧
        decodeStream { config with regName := regName } [] = .ok "bits 16".toList

/-- The output ports of R21 (the port list is the spec's decision D2) for every two bytes and every configuration. The seven
that are always valid carry the word the bytes form in the configured byte order and its accessors' values, whether or not
the word decodes; in this hardware's configuration the word's number is 256 times the first byte's plus the second's (R33). The
status says which arm of the result holds; when it is `Ok`, `dst`, `src` and `text` carry the formatter's values; when it is
not, they carry no value (R22, D14; that they are absent is DEDUCED, log entry 13). -/
def Obligations.PortsCarryValuesOnlyWhenOk : Prop :=
  (∀ b0 b1 : Byte, (ports config b0 b1).word.toNat = 256 * b0.toNat + b1.toNat) ∧
  ∀ (c : Config) (b0 b1 : Byte) (word : Word), word = wordOfBytesIn c.wordByteOrder b0 b1 →
    ((ports c b0 b1).word = word ∧ (ports c b0 b1).op = opcodeOf c word ∧
        (ports c b0 b1).d = fieldD word ∧ (ports c b0 b1).w = fieldW word ∧
        (ports c b0 b1).mod = fieldMod word ∧ (ports c b0 b1).reg = fieldReg word ∧
        (ports c b0 b1).rm = fieldRm word) ∧
      match formatWord c word with
      | .ok f =>
        (ports c b0 b1).status = .ok ∧ (ports c b0 b1).dst = some f.dst ∧ (ports c b0 b1).src = some f.src ∧
          (ports c b0 b1).text = some f.text ∧ coreDecode c b0 b1 = .ok f.text
      | .error e =>
        (ports c b0 b1).status = (match e with
          | .invalidInstruction => .invalidInstruction
          | .invalidRegister => .invalidRegister) ∧
          (ports c b0 b1).dst = none ∧ (ports c b0 b1).src = none ∧ (ports c b0 b1).text = none ∧
          coreDecode c b0 b1 = .error e

/-! ## The Bit type -/

/-- The truth table of R81 and the assigning forms of R78 for every pair of Bits; the tables are general knowledge (G6,
PRESUMED, log entry 14). -/
def Obligations.BitOperatorsFollowTheTable : Prop :=
  ∀ a b : Bit,
    (Bit.not a).toBool = !a.toBool ∧ (Bit.and a b).toBool = (a.toBool && b.toBool) ∧
      (Bit.or a b).toBool = (a.toBool || b.toBool) ∧ (Bit.xor a b).toBool = (a.toBool != b.toBool) ∧
      Bit.equal a b = (Bit.not (Bit.xor a b)).toBool ∧ Bit.andAssign a b = Bit.and a b ∧
      Bit.orAssign a b = Bit.or a b ∧ Bit.xorAssign a b = Bit.xor a b

/-- A Bit is made from a boolean, converts back to it, and renders as `1` or `0` (R71, R72, R82). The two round trips are the
corner cases of R72, which the spec marks as its own inference from R71 and R72. -/
def Obligations.BitConversionsAndRendering : Prop :=
  Bit.fromBool true = .bit1 ∧ Bit.fromBool false = .bit0 ∧ Bit.toBool .bit1 = true ∧ Bit.toBool .bit0 = false ∧
    (∀ v, (Bit.fromBool v).toBool = v) ∧ (∀ a : Bit, Bit.fromBool a.toBool = a) ∧
    Bit.render .bit1 = "1".toList ∧ Bit.render .bit0 = "0".toList

/-! ## Instructions -/

/-- In every running state and for every operand, `mov` completes: its text `mov <dst>, <src>`, with REG the destination if D
is true and R/M if D is false (R144), goes onto the listing after one line break (R161, R163; that the break stands before
the text is the spec's decision D7, DESIGN CHOICE, log entry 7), and the position moves past its two bytes (R161, R165);
nothing else changes. The names come from the register table of the configuration, whose entries the statement does not
use. -/
def Obligations.MovAppendsItsLine : Prop :=
  ∀ (d w : Bit) (reg rm : BitVec 3) (s : State), s.outcome = .running →
    exec (.mov d w reg rm) s =
      .next
        { s with
          pos := s.pos + 2
          listing :=
            s.listing ++ [config.lineBreak] ++ "mov".toList ++ [' '] ++
              renderRegister (config.regName w (if d = .bit1 then reg.toFin else rm.toFin)) ++ [',', ' '] ++
              renderRegister (config.regName w (if d = .bit1 then rm.toFin else reg.toFin)) }

/-- The four `ILLEGAL` rows are instructions whose effect is a next state with the outcome `Failed(InvalidInstruction)`:
the model's reading (DEDUCED, log entry 9) of R56, R166, R184 and R189. In every running state and for every operand each
completes so, with the error that R141 and R143 raise. Nothing but the outcome changes (R184; that the listing stays in the
state is DEDUCED, log entry 16). -/
def Obligations.IllegalRowsFailTheRun : Prop :=
  (∀ (d w : Bit) (reg rm : BitVec 3) (s : State), s.outcome = .running →
      exec (.illegalMod00 d w reg rm) s = .next { s with outcome := .failed (.decode .invalidInstruction) } ∧
        exec (.illegalMod01 d w reg rm) s = .next { s with outcome := .failed (.decode .invalidInstruction) } ∧
        exec (.illegalMod10 d w reg rm) s = .next { s with outcome := .failed (.decode .invalidInstruction) }) ∧
    ∀ (opcode : BitVec 6) (d w : Bit) (mod : BitVec 2) (reg rm : BitVec 3) (s : State),
      s.outcome = .running → opcode ≠ 0b100010#6 →
        exec (.illegalOpcode opcode d w mod reg rm) s =
          .next { s with outcome := .failed (.decode .invalidInstruction) }

/-- The frame of every instruction. `mov` leaves the input and the outcome, and the listing as a beginning of the new one
(R161). The four illegal rows, instructions by log entry 9 (DEDUCED), leave the input, the position and the listing (R161,
R184: nothing is changed but the outcome); that the listing stays in the state, where R166 withholds it from the caller, is
DEDUCED (log entry 16). No instruction stores to the input: every byte of it reads as before (R40). -/
def Obligations.InstrFrames : Prop :=
  ∀ (i : Instr) (s t : State), i.wf = true → exec i s = .next t →
    (t.input = s.input ∧ ∀ a, t.input.read a = s.input.read a) ∧
      match i with
      | .mov .. => t.outcome = s.outcome ∧ s.listing <+: t.listing
      | .illegalMod00 .. => t.pos = s.pos ∧ t.listing = s.listing
      | .illegalMod01 .. => t.pos = s.pos ∧ t.listing = s.listing
      | .illegalMod10 .. => t.pos = s.pos ∧ t.listing = s.listing
      | .illegalOpcode .. => t.pos = s.pos ∧ t.listing = s.listing

/-! ## The sequencer -/

/-- R31: `MemRead(addr, n)` of a byte sequence is its slice, defined only when it lies within it; and what a step reads as
a chunk is `MemRead(pos, 2)`. -/
def Obligations.MemReadIsASliceOfTheInput : Prop :=
  (∀ (bs : List Byte) (addr n : Nat),
      (Memory.ofBytes bs).memRead addr n = if addr + n ≤ bs.length then some ((bs.drop addr).take n) else none) ∧
    ∀ (s : State) (b0 b1 : Byte), fetch s = .chunk b0 b1 → s.input.memRead s.pos 2 = some [b0, b1]

/-- When the two bytes at the position decode to an instruction, a step of a running state is that instruction run in
that state, with nothing around it: the position is moved by the instruction alone. -/
def Obligations.StepRunsTheDecodedInstr : Prop :=
  ∀ (s : State) (bs : List Byte) (i : Instr), s.outcome = .running → s.input.memRead s.pos 2 = some bs →
    decode bs = .ok (i, []) → step s = exec i s

/-- A step of a running state with a chunk unread, as R161 gives it in terms of `decode(b0, b1)`: a text goes onto the listing
after a line break and the position moves by 2; an error becomes the outcome and nothing else changes (R184; that the
listing stays in the state is DEDUCED, log entry 16). This ties the decoder's rows and their meanings to the formatter of
`44_formatter.md`. That the break stands before the text is the spec's decision D7 (DESIGN CHOICE, log entry 7). -/
def Obligations.ChunkStepFollowsCoreDecode : Prop :=
  ∀ (s : State) (b0 b1 : Byte), s.outcome = .running → s.input.memRead s.pos 2 = some [b0, b1] →
    step s =
      match coreDecode config b0 b1 with
      | .ok text =>
        .next { s with listing := s.listing ++ [config.lineBreak] ++ text, pos := s.pos + 2 }
      | .error e => .next { s with outcome := .failed (.decode e) }

/-- With every byte read a step sets the outcome to done and changes nothing else, the result is the whole listing, and
there is no further step (R164); with an empty input this happens at the first step and the listing is exactly the header.
That no line break follows the header there is the spec's decision D7 (DESIGN CHOICE, log entry 7). -/
def Obligations.EmptyRestEndsTheRun : Prop :=
  (∀ s : State, s.outcome = .running → s.pos = s.input.len →
      step s = .next { s with outcome := .done } ∧
        ({ s with outcome := .done } : State).result = some (.ok s.listing) ∧
        ∀ t, step { s with outcome := .done } ≠ .next t) ∧
    ∃ t, step (State.load []) = .next t ∧ t.result = some (.ok config.header)

/-- On a chunk that fails, a step sets the outcome to failed with the error CORE returned and changes nothing else (R161, R166,
R184), the result is that error alone, the listing withheld (R166), and there is no further step. That the listing stays in
the state, where R166 says it is discarded, is DEDUCED (log entry 16). -/
def Obligations.FailedChunkAbortsTheRun : Prop :=
  ∀ (s : State) (b0 b1 : Byte) (e : DecodeError), s.outcome = .running →
    s.input.memRead s.pos 2 = some [b0, b1] → coreDecode config b0 b1 = .error e →
      step s = .next { s with outcome := .failed (.decode e) } ∧
        ({ s with outcome := .failed (.decode e) } : State).result = some (.error (.decode e)) ∧
        ∀ t, step { s with outcome := .failed (.decode e) } ≠ .next t

/-- The spec's decision D6 (R167, DESIGN CHOICE, log entry 6): with exactly one byte left a step fails the run with
`MalformedInput` and changes nothing but the outcome (R161, R184), whatever that byte is, and the result is the error alone.
That the listing stays in the state, where R167 says it is discarded, is DEDUCED (log entry 16). -/
def Obligations.DanglingByteFailsTheRun : Prop :=
  ∀ s : State, s.outcome = .running → s.pos + 1 = s.input.len →
    step s = .next { s with outcome := .failed .malformedInput } ∧
      ({ s with outcome := .failed .malformedInput } : State).result = some (.error .malformedInput)

/-- No step and no instruction is enabled once the run is over (R161, R164, R188); the model shows it as a fault whose name
says how the run ended (DEDUCED, log entry 8). -/
def Obligations.EndedRunHasNoStep : Prop :=
  (∀ (s : State) (i : Instr), s.outcome = .done → step s = .fault .finished ∧ exec i s = .fault .finished) ∧
    ∀ (s : State) (i : Instr) (e : StreamError), s.outcome = .failed e →
      step s = .fault (.aborted e) ∧ exec i s = .fault (.aborted e)

/-- Every running state has a next state, and every step ends the run or moves the position forward by two within the
input, so a run cannot go on for ever (R165, R189, R205). That a position beyond the end of the input, which no run reaches, counts
as the end is log entry 11 (DESIGN CHOICE). -/
def Obligations.EveryRunningStepProgresses : Prop :=
  (∀ s : State, s.outcome = .running → ∃ t, step s = .next t) ∧
    ∀ s t : State, step s = .next t →
      (t.outcome ≠ .running ∧ t.pos = s.pos) ∨
        (t.outcome = .running ∧ t.pos = s.pos + 2 ∧ t.pos ≤ t.input.len)

/-- The input is read-only: no step changes its length or any byte of it (R30, R40). -/
def Obligations.NoStepWritesTheInput : Prop :=
  ∀ s t : State, step s = .next t → t.input.len = s.input.len ∧ ∀ a, t.input.read a = s.input.read a

/-- Evaluations are independent (R202): two states with the same position, listing and outcome and the same two bytes at
the position, whatever their inputs hold elsewhere, take steps that agree on position, listing and outcome. That a failing step keeps the listing is DEDUCED (log entry 16). -/
def Obligations.StepDependsOnItsChunkOnly : Prop :=
  ∀ (s s' t : State) (b0 b1 : Byte), s'.pos = s.pos → s'.listing = s.listing → s'.outcome = s.outcome →
    s.input.memRead s.pos 2 = some [b0, b1] → s'.input.memRead s'.pos 2 = some [b0, b1] → step s = .next t →
      ∃ t', step s' = .next t' ∧ t'.pos = t.pos ∧ t'.listing = t.listing ∧ t'.outcome = t.outcome

/-! ## Invariants and whole runs -/

/-- The state at reset: position 0, the listing the header, running (R25; the header's exact characters are the spec's
decision D7, log entry 7), and no input yet (DESIGN CHOICE, log entry 2). -/
def Obligations.ResetStateValues : Prop :=
  State.reset.pos = 0 ∧ State.reset.listing = "bits 16".toList ∧ State.reset.outcome = .running ∧
    State.reset.input.toBytes = []

/-- The invariant holds at reset. -/
def Obligations.ResetMeetsTheInvariant : Prop := State.reset.Inv

/-- The invariant holds at the start of a run over any byte sequence. -/
def Obligations.LoadMeetsTheInvariant : Prop := ∀ bs : List Byte, (State.load bs).Inv

/-- Every step keeps the invariant: the input in canonical form and of an admitted length (D13, log entry 19), the position
even and within it, the listing exactly what `decode_stream` gives for the bytes below the position, and the outcome fitting
the position (R163, R165, R187). The layout of the listing rests on D7 (log entry 7), the outcome for a byte left over on D6
(log entry 6), and that a failed run keeps its listing is DEDUCED (log entry 16). -/
def Obligations.EveryStepKeepsTheInvariant : Prop :=
  ∀ s t : State, s.Inv → step s = .next t → t.Inv

/-- Stepping the sequencer from the start of a run over any byte sequence reaches, after at most `floor(len / 2) + 1` steps,
a state whose result is what `decode_stream` gives for the whole sequence (R168, R189, marked by the spec as its own
inference; the layout of the listing rests on D7, log entry 7, and an odd length on D6, log entry 6). -/
def Obligations.RunGivesDecodeStream : Prop :=
  ∀ bs : List Byte, ∃ k t, k ≤ bs.length / 2 + 1 ∧ core.run k (State.load bs) = .next t ∧
    State.result t = some (decodeStream config bs)

/-- For any configuration: where every chunk of a sequence decodes, `decode_stream` gives the start of the listing and then
one line for each chunk in order, and nothing after (R163, R168). In this hardware's layout (the spec's decision D7, DESIGN
CHOICE, log entry 7) that is the header and, for each chunk, one line break and its text; in the layout C2 turns down each
line break stands after its line, the header's too. -/
def Obligations.ListingHasOneLinePerChunk : Prop :=
  config.listingLayout = .breakBeforeEachLine ∧
  ∀ (c : Config) (chunks : List (Byte × Byte)) (texts : List Text),
    chunks.map (fun p => coreDecode c p.1 p.2) = texts.map Except.ok →
      decodeStream c (chunks.flatMap fun p => [p.1, p.2]) =
        .ok (match c.listingLayout with
          | .breakBeforeEachLine => c.header ++ texts.flatMap fun text => c.lineBreak :: text
          | .breakAfterEachLine => c.header ++ [c.lineBreak] ++ texts.flatMap fun text => text ++ [c.lineBreak])

/-- A listing has `7 + 11 n` characters and `n` line breaks for `n` chunks (R163; rests on D5 and D7, log entries 5
and 7). -/
def Obligations.ListingLengthIsFixed : Prop :=
  ∀ (bs : List Byte) (listing : Text), decodeStream config bs = .ok listing →
    listing.length = 7 + 11 * (bs.length / 2) ∧ listing.count '\n' = bs.length / 2

/-- The lowest failing position decides the error of a sequence (R186), for any configuration: after chunks that all decode,
a failing chunk gives its own error whatever follows it, and a byte left over gives the configured error (D6, log
entry 6). -/
def Obligations.FirstFailingPositionDecides : Prop :=
  ∀ (c : Config) (before : List Byte) (listing : Text), before.length % 2 = 0 →
    decodeStream c before = .ok listing →
      (∀ (b0 b1 : Byte) (e : DecodeError) (rest : List Byte), coreDecode c b0 b1 = .error e →
          decodeStream c (before ++ b0 :: b1 :: rest) = .error (.decode e)) ∧
        ∀ b : Byte, decodeStream c (before ++ [b]) = .error c.oddPolicy

/-- No input of odd length gives a listing (R167, the spec's decision D6, log entry 6), and `MalformedInput` is given for no
input of even length. -/
def Obligations.OddLengthGivesNoListing : Prop :=
  (∀ (bs : List Byte) (listing : Text), bs.length % 2 = 1 → decodeStream config bs ≠ .ok listing) ∧
    ∀ bs : List Byte, bs.length % 2 = 0 → decodeStream config bs ≠ .error .malformedInput

/-- R92: the recognised opcode renders as `mov` and the unrecognised one as the placeholder `invalid instruction`, which is
part of no instruction text and of no listing. -/
def Obligations.PlaceholderNeverAppears : Prop :=
  renderOpcode config .moveRegister = "mov".toList ∧
    renderOpcode config .unrecognized = "invalid instruction".toList ∧
    (∀ (b0 b1 : Byte) (text : Text), coreDecode config b0 b1 = .ok text →
      ¬ renderOpcode config .unrecognized <:+: text) ∧
    ∀ (bs : List Byte) (listing : Text), decodeStream config bs = .ok listing →
      ¬ renderOpcode config .unrecognized <:+: listing

/-- Every character of a listing is ASCII, so that one byte each carries it (`TEXT_ENCODING`, the spec's decision D5,
PRESUMED, log entry 5): the bytes say the characters. -/
def Obligations.ListingIsAscii : Prop :=
  ∀ (bs : List Byte) (listing : Text), decodeStream config bs = .ok listing →
    (∀ ch ∈ listing, ch.toNat < 128) ∧ (encodeText config listing).map (fun b => Char.ofNat b.toNat) = listing

/-! ## The parameters -/

/-- The eighteen parameters of R5 have their values in the one configuration record. `REGNAME` is the table of R101, whose
entries `RegisterTableIsOneToOne` gives one by one (D4, log entry 4); `LINE_BREAK` and `TEXT_ENCODING` are D5 (PRESUMED, log
entry 5), `ODD_POLICY` is D6 (DESIGN CHOICE, log entry 6), `LISTING_LAYOUT` is D7 (DESIGN CHOICE, log entry 7), and the
input's length has no maximum (D13, log entry 19). The widths in the record are those of the model's types (log entry 20). -/
def Obligations.ParametersHaveTheirValues : Prop :=
  (config.wordBits = 16 ∧ config.bytesPerInstr = 2 ∧ config.wordByteOrder = .firstMostSignificant ∧
      config.opcodeBits = 6 ∧ config.opcodeMov = 0b100010#6 ∧ config.modRegDirect = 0b11#2 ∧ config.regIndexBits = 3 ∧
      config.nRegisterNames = 16 ∧ (∀ w i, config.regName w i = regNameTable w i)) ∧
    (config.mnemonicMov = "mov".toList ∧ config.placeholderUnrecognized = "invalid instruction".toList ∧
      config.header = "bits 16".toList ∧ config.lineBreak.toNat = 0x0A ∧ config.operandSeparator = ", ".toList ∧
      config.oddPolicy = .malformedInput ∧ config.listingLayout = .breakBeforeEachLine) ∧
    (∀ ch : Char, ch.toNat < 128 → (config.textEncoding ch).toNat = ch.toNat) ∧
    (config.maxInputLength = none ∧ ∀ n, lengthAdmitted config n = true) ∧ widthsFit config = true

/-- R50 with the widths of R5: on every word each accessor's value, as a number, is the word's number divided by two to the
power of the bits below the field, modulo two to the power of the field's width; the places and widths are those of R50's
table, whose columns counted from the least significant bit the spec derives from R6. -/
def Obligations.FieldsStandWhereTheWidthsSay : Prop :=
  (Field.all.map (fieldLow config) = [10, 9, 8, 6, 3, 0] ∧ Field.all.map (fieldWidth config) = [6, 1, 1, 2, 3, 3]) ∧
    ∀ word : Word,
      (opcodeField word).toNat = fieldValue config .opcode word.toNat ∧
        (bitOf (fieldD word)).toNat = fieldValue config .d word.toNat ∧
        (bitOf (fieldW word)).toNat = fieldValue config .w word.toNat ∧
        (fieldMod word).toNat = fieldValue config .mod word.toNat ∧
        (fieldReg word).toNat = fieldValue config .reg word.toNat ∧
        (fieldRm word).toNat = fieldValue config .rm word.toNat
end

