-- ==== Sys2Proof/Laws/Config.lean ====
section
/-!
SUPPORT. The values this hardware's parameters have, and what its listing layout makes of a line, so that no later proof
unfolds the record.
-/

namespace Sys2Proof.Machine

@[simp] theorem config_wordBits : config.wordBits = 16 := rfl
@[simp] theorem config_bytesPerInstr : config.bytesPerInstr = 2 := rfl
@[simp] theorem config_wordByteOrder : config.wordByteOrder = .firstMostSignificant := rfl
@[simp] theorem config_opcodeBits : config.opcodeBits = 6 := rfl
@[simp] theorem config_opcodeMov : config.opcodeMov = 0b100010#6 := rfl
@[simp] theorem config_modRegDirect : config.modRegDirect = 0b11#2 := rfl
@[simp] theorem config_regIndexBits : config.regIndexBits = 3 := rfl
@[simp] theorem config_nRegisterNames : config.nRegisterNames = 16 := rfl
@[simp] theorem config_lineBreak : config.lineBreak = '\n' := rfl
@[simp] theorem config_oddPolicy : config.oddPolicy = .malformedInput := rfl
@[simp] theorem config_listingLayout : config.listingLayout = .breakBeforeEachLine := rfl

@[simp] theorem config_maxInputLength : config.maxInputLength = none := rfl
@[simp] theorem config_textEncoding (ch : Char) : config.textEncoding ch = BitVec.ofNat 8 ch.toNat := rfl

@[simp] theorem listingStart_config : listingStart config = config.header := rfl

@[simp] theorem listingLine_config (text : Text) : listingLine config text = config.lineBreak :: text := rfl

@[simp] theorem lengthAdmitted_config (n : Nat) : lengthAdmitted config n = true := rfl

theorem listingStart_breakBefore {c : Config} (h : c.listingLayout = .breakBeforeEachLine) :
    listingStart c = c.header := by
  simp only [listingStart, h]

theorem listingLine_breakBefore {c : Config} (h : c.listingLayout = .breakBeforeEachLine) (text : Text) :
    listingLine c text = c.lineBreak :: text := by
  simp only [listingLine, h]

end Sys2Proof.Machine
end

