-- ==== Sys2Proof/Laws/Decode.lean ====
section
/-!
SUPPORT. The bit-field lemmas: what each accessor reads from a packed word, and what each table row accepts.
-/

namespace Sys2Proof

/-- In this hardware's byte order the first byte is the high one (R120). -/
theorem wordOfBytes_eq (b0 b1 : Byte) : wordOfBytes b0 b1 = joinBytes b0 b1 := rfl

theorem firstByte_eq (word : Word) : firstByte word = highByte word := rfl

theorem secondByte_eq (word : Word) : secondByte word = lowByte word := rfl

/-! The masks and shifts of the six accessors, as R121 to R126 write them. -/

theorem opcodeField_eq (word : Word) : opcodeField word = ((word &&& 0xFC00#16) >>> 10).setWidth 6 := rfl

theorem fieldD_eq (word : Word) : fieldD word = Bit.fromBool ((word &&& 0x0200#16) >>> 9 == 1#16) := rfl

theorem fieldW_eq (word : Word) : fieldW word = Bit.fromBool ((word &&& 0x0100#16) >>> 8 == 1#16) := rfl

theorem fieldMod_eq (word : Word) : fieldMod word = ((word &&& 0x00C0#16) >>> 6).setWidth 2 := rfl

theorem fieldReg_eq (word : Word) : fieldReg word = ((word &&& 0x0038#16) >>> 3).setWidth 3 := rfl

theorem fieldRm_eq (word : Word) : fieldRm word = (word &&& 0x0007#16).setWidth 3 := by
  rw [show fieldRm word = ((word &&& 0x0007#16) >>> 0).setWidth 3 from rfl, BitVec.ushiftRight_zero]

@[simp] theorem opcodeField_packFields (opcode : BitVec 6) (d w : Bit) (mod : BitVec 2) (reg rm : BitVec 3) :
    opcodeField (packFields opcode d w mod reg rm) = opcode := by
  ext i hi
  cases d <;> cases w <;> interval_cases i <;> simp [opcodeField_eq, packFields, bitOf]

@[simp] theorem fieldMod_packFields (opcode : BitVec 6) (d w : Bit) (mod : BitVec 2) (reg rm : BitVec 3) :
    fieldMod (packFields opcode d w mod reg rm) = mod := by
  ext i hi
  cases d <;> cases w <;> interval_cases i <;> simp [fieldMod_eq, packFields, bitOf]

/-- The four rows with fixed bits test the opcode field and MOD, and nothing else (`30_encoding.md` R55, R56). -/
theorem masked_eq_iff (word : Word) (mod : BitVec 2) :
    (word &&& 0xFCC0#16 = packFields 0b100010#6 .bit0 .bit0 mod 0#3 0#3) ↔
      (opcodeField word = 0b100010#6 ∧ fieldMod word = mod) := by
  constructor
  · intro h
    have h1 : opcodeField (word &&& 0xFCC0#16) = 0b100010#6 := by rw [h]; simp
    have h2 : fieldMod (word &&& 0xFCC0#16) = mod := by rw [h]; simp
    constructor
    · rw [← h1, opcodeField_eq, opcodeField_eq, BitVec.and_assoc]; rfl
    · rw [← h2, fieldMod_eq, fieldMod_eq, BitVec.and_assoc]; rfl
  · rintro ⟨h1, h2⟩
    subst h2
    ext i hi
    have hop : ∀ j (hj : j < 6), (opcodeField word)[j] = (0b100010#6)[j] := fun j hj => by rw [h1]
    have o0 := hop 0 (by omega)
    have o1 := hop 1 (by omega)
    have o2 := hop 2 (by omega)
    have o3 := hop 3 (by omega)
    have o4 := hop 4 (by omega)
    have o5 := hop 5 (by omega)
    clear hop h1
    interval_cases i <;> simp_all [opcodeField_eq, fieldMod_eq, packFields, bitOf]

/-- A row with fixed bits accepts a word exactly when the opcode field is `100010` and MOD is the row's. -/
theorem rowOf_eq (word : Word) :
    rowOf word =
      if opcodeField word ≠ 0b100010#6 then .illegalOpcode
      else if fieldMod word = 0b11#2 then .mov
      else if fieldMod word = 0b00#2 then .illegalMod00
      else if fieldMod word = 0b01#2 then .illegalMod01
      else .illegalMod10 := by
  have hm : ∀ mod, (word &&& 0xFCC0#16 == packFields 0b100010#6 .bit0 .bit0 mod 0#3 0#3) =
      decide (opcodeField word = 0b100010#6 ∧ fieldMod word = mod) := fun mod => by
    rw [beq_eq_decide]
    exact decide_eq_decide.2 (masked_eq_iff word mod)
  have h3 := hm 0b11#2
  have h0 := hm 0b00#2
  have h1 := hm 0b01#2
  have h2 := hm 0b10#2
  have e3 : packFields 0b100010#6 .bit0 .bit0 0b11#2 0#3 0#3 = 0x88C0#16 := rfl
  have e0 : packFields 0b100010#6 .bit0 .bit0 0b00#2 0#3 0#3 = 0x8800#16 := rfl
  have e1 : packFields 0b100010#6 .bit0 .bit0 0b01#2 0#3 0#3 = 0x8840#16 := rfl
  have e2 : packFields 0b100010#6 .bit0 .bit0 0b10#2 0#3 0#3 = 0x8880#16 := rfl
  rw [e3] at h3
  rw [e0] at h0
  rw [e1] at h1
  rw [e2] at h2
  have hmods : ∀ m : BitVec 2, m = 0b11#2 ∨ m = 0b00#2 ∨ m = 0b01#2 ∨ m = 0b10#2 := by decide
  simp only [rowOf, opcodeTable, firstRow, TableRow.accepts, h3, h0, h1, h2]
  by_cases hop : opcodeField word = 0b100010#6
  · rcases hmods (fieldMod word) with h | h | h | h <;> simp [hop, h]
  · simp [hop]

/-- The word of a well-formed instruction is a word of that instruction's own row. -/
theorem rowOf_packFields (opcode : BitVec 6) (d w : Bit) (mod : BitVec 2) (reg rm : BitVec 3) :
    rowOf (packFields opcode d w mod reg rm) =
      if opcode ≠ 0b100010#6 then .illegalOpcode
      else if mod = 0b11#2 then .mov
      else if mod = 0b00#2 then .illegalMod00
      else if mod = 0b01#2 then .illegalMod01
      else .illegalMod10 := by
  rw [rowOf_eq, opcodeField_packFields, fieldMod_packFields]

@[simp] theorem decode_pair (b0 b1 : Byte) (rest : List Byte) :
    decode (b0 :: b1 :: rest) = .ok (decodeWord (wordOfBytes b0 b1), rest) := rfl

end Sys2Proof
end

