-- ==== Sys2Proof/Laws/Memory.lean ====
section
/-!
SUPPORT. The laws of the input sequence: its canonical form is kept by every operation that lays it out, a byte reads as
it was laid out and others as before, and equal sequences are equal data.
-/

namespace Sys2Proof.Machine

/-! ## The canonical form -/

@[simp] theorem cellsWf_nil (lo hi : Nat) : cellsWf lo hi [] = true := rfl

@[simp] theorem cellsWf_cons (lo hi k : Nat) (v : Byte) (rest : List Host.Cell) :
    cellsWf lo hi ((k, v) :: rest) = true ↔
      lo ≤ k ∧ k < hi ∧ v ≠ unlistedByte ∧ cellsWf (k + 1) hi rest = true := by
  simp [cellsWf, and_assoc]

theorem cellsWf_mono {lo lo' hi hi' : Nat} {cells : List Host.Cell} (hlo : lo' ≤ lo) (hhi : hi ≤ hi')
    (h : cellsWf lo hi cells = true) : cellsWf lo' hi' cells = true := by
  induction cells generalizing lo lo' with
  | nil => rfl
  | cons c rest ih =>
    obtain ⟨k, v⟩ := c
    rw [cellsWf_cons] at h ⊢
    exact ⟨by omega, by omega, h.2.2.1, ih (Nat.le_refl _) h.2.2.2⟩

theorem cellsWf_cellsSet {lo hi a : Nat} {cells : List Host.Cell} (b : Byte) (hlo : lo ≤ a) (hhi : a < hi)
    (h : cellsWf lo hi cells = true) : cellsWf lo hi (cellsSet cells a b) = true := by
  induction cells generalizing lo with
  | nil =>
    unfold cellsSet
    split <;> simp [*]
  | cons c rest ih =>
    obtain ⟨k, v⟩ := c
    rw [cellsWf_cons] at h
    obtain ⟨h1, h2, h3, h4⟩ := h
    unfold cellsSet
    split_ifs with hak hb hak' hb
    · exact (cellsWf_cons ..).2 ⟨h1, h2, h3, h4⟩
    · exact (cellsWf_cons ..).2 ⟨hlo, hhi, hb, (cellsWf_cons ..).2 ⟨hak, h2, h3, h4⟩⟩
    · exact cellsWf_mono (by omega) (Nat.le_refl _) h4
    · exact (cellsWf_cons ..).2 ⟨hlo, hhi, hb, hak' ▸ h4⟩
    · exact (cellsWf_cons ..).2 ⟨h1, h2, h3, ih (by omega) h4⟩

theorem cellsWf_cellsOfBytes (base : Nat) (bs : List Byte) :
    cellsWf base (base + bs.length) (cellsOfBytes base bs) = true := by
  induction bs generalizing base with
  | nil => rfl
  | cons b rest ih =>
    have h := ih (base + 1)
    unfold cellsOfBytes
    split
    · exact cellsWf_mono (by omega) (by simp; omega) h
    · rename_i hb
      exact (cellsWf_cons ..).2 ⟨Nat.le_refl _, by simp, hb, cellsWf_mono (Nat.le_refl _) (by simp; omega) h⟩

theorem ofBytes_wf (bs : List Byte) : (Memory.ofBytes bs).wf = true := by
  simpa [Memory.wf, Memory.ofBytes] using cellsWf_cellsOfBytes 0 bs

theorem extend_wf {m : Memory} (n : Nat) (h : m.wf = true) : (m.extend n).wf = true :=
  cellsWf_mono (Nat.le_refl _) (Nat.le_max_left ..) h

theorem write_wf {m : Memory} (addr : Nat) (b : Byte) (h : m.wf = true) : (m.write addr b).wf = true := by
  unfold Memory.write
  split
  · exact cellsWf_cellsSet b (Nat.zero_le _) ‹_› h
  · exact h

theorem reset_input_wf : State.reset.input.wf = true := rfl

/-! ## Reading -/

theorem cellsGet_below {lo hi a : Nat} {cells : List Host.Cell} (h : cellsWf lo hi cells = true) (ha : a < lo) :
    cellsGet cells a = unlistedByte := by
  induction cells generalizing lo with
  | nil => rfl
  | cons c rest ih =>
    obtain ⟨k, v⟩ := c
    obtain ⟨h1, -, -, h4⟩ := (cellsWf_cons ..).1 h
    rw [cellsGet, if_neg (by omega)]
    exact ih h4 (by omega)

theorem cellsGet_cellsSet {lo hi : Nat} {cells : List Host.Cell} (a : Nat) (b : Byte) (x : Nat)
    (h : cellsWf lo hi cells = true) :
    cellsGet (cellsSet cells a b) x = if x = a then b else cellsGet cells x := by
  induction cells generalizing lo with
  | nil =>
    unfold cellsSet
    split_ifs with hb hx hx <;> simp_all [cellsGet, eq_comm]
  | cons c rest ih =>
    obtain ⟨k, v⟩ := c
    obtain ⟨-, -, -, h4⟩ := (cellsWf_cons ..).1 h
    have hrest := ih h4
    have hbelow : ∀ y, y ≤ k → cellsGet rest y = unlistedByte := fun y hy => cellsGet_below h4 (by omega)
    unfold cellsSet
    rcases Nat.lt_trichotomy a k with hak | hak | hak
    · rw [if_pos hak]
      by_cases hb : b = unlistedByte
      · rw [if_pos hb]
        by_cases hx : x = a
        · subst hx hb
          rw [if_pos rfl, cellsGet, if_neg (by omega), hbelow _ (by omega)]
        · rw [if_neg hx]
      · rw [if_neg hb, cellsGet]
        by_cases hx : x = a
        · rw [if_pos hx.symm, if_pos hx]
        · rw [if_neg (Ne.symm hx), if_neg hx]
    · subst hak
      rw [if_neg (Nat.lt_irrefl _), if_pos rfl]
      by_cases hx : x = a
      · subst hx
        by_cases hb : b = unlistedByte
        · rw [if_pos hb, if_pos rfl, hb, hbelow _ (Nat.le_refl _)]
        · rw [if_neg hb, cellsGet, if_pos rfl, if_pos rfl]
      · rw [if_neg hx, cellsGet, if_neg (Ne.symm hx)]
        by_cases hb : b = unlistedByte
        · rw [if_pos hb]
        · rw [if_neg hb, cellsGet, if_neg (Ne.symm hx)]
    · rw [if_neg (by omega), if_neg (by omega), cellsGet, cellsGet, hrest]
      by_cases hk : k = x
      · rw [if_pos hk, if_pos hk, if_neg (by omega)]
      · rw [if_neg hk, if_neg hk]

/-- A read after a write: the byte written at its address, every other byte as before. -/
theorem read_write {m : Memory} (a : Nat) (b : Byte) (x : Nat) (h : m.wf = true) (ha : a < m.len) :
    (m.write a b).read x = if x = a then some b else m.read x := by
  have hget := cellsGet_cellsSet a b x h
  unfold Memory.write Memory.read
  rw [if_pos ha]
  simp only [hget]
  split_ifs <;> first | rfl | omega

@[simp] theorem ofBytes_len (bs : List Byte) : (Memory.ofBytes bs).len = bs.length := rfl

theorem cellsGet_cellsOfBytes (base : Nat) (bs : List Byte) (k : Nat) :
    cellsGet (cellsOfBytes base bs) (base + k) = bs.getD k unlistedByte := by
  induction bs generalizing base k with
  | nil => rfl
  | cons b rest ih =>
    have hbelow : cellsGet (cellsOfBytes (base + 1) rest) base = unlistedByte :=
      cellsGet_below (cellsWf_cellsOfBytes (base + 1) rest) (by omega)
    have hshift : ∀ j, cellsGet (cellsOfBytes (base + 1) rest) (base + (j + 1)) = rest.getD j unlistedByte := by
      intro j
      rw [show base + (j + 1) = base + 1 + j by omega]
      exact ih (base + 1) j
    unfold cellsOfBytes
    cases k with
    | zero =>
      split
      · simp [*]
      · simp [cellsGet]
    | succ j =>
      split
      · simpa using hshift j
      · rw [cellsGet, if_neg (by omega)]
        simpa using hshift j

theorem toBytes_length (m : Memory) : m.toBytes.length = m.len := by simp [Memory.toBytes]

theorem toBytes_ofBytes (bs : List Byte) : (Memory.ofBytes bs).toBytes = bs := by
  apply List.ext_getElem
  · simp [Memory.toBytes]
  · intro k h1 h2
    have h := cellsGet_cellsOfBytes 0 bs k
    simp only [Nat.zero_add] at h
    simp [Memory.toBytes, Memory.ofBytes, h, h2]

/-- Two bytes read at once are the two bytes a fetch reads. -/
theorem memRead_two {m : Memory} {addr : Nat} (h : addr + 2 ≤ m.len) :
    m.memRead addr 2 = some [cellsGet m.cells addr, cellsGet m.cells (addr + 1)] := by
  simp [Memory.memRead, h, List.range_succ]

/-- Canonical cells that read alike everywhere are the same cells. -/
theorem cells_ext {lo hi hi' : Nat} {cells cells' : List Host.Cell} (h : cellsWf lo hi cells = true)
    (h' : cellsWf lo hi' cells' = true) (hget : ∀ a, cellsGet cells a = cellsGet cells' a) : cells = cells' := by
  induction cells generalizing lo cells' with
  | nil =>
    cases cells' with
    | nil => rfl
    | cons c' rest' =>
      obtain ⟨k', v'⟩ := c'
      obtain ⟨-, -, hv, -⟩ := (cellsWf_cons ..).1 h'
      have := hget k'
      simp only [cellsGet, if_true] at this
      exact absurd this.symm hv
  | cons c rest ih =>
    obtain ⟨k, v⟩ := c
    obtain ⟨h1, h2, h3, h4⟩ := (cellsWf_cons ..).1 h
    cases cells' with
    | nil =>
      have := hget k
      simp only [cellsGet, if_true] at this
      exact absurd this h3
    | cons c' rest' =>
      obtain ⟨k', v'⟩ := c'
      obtain ⟨h1', h2', h3', h4'⟩ := (cellsWf_cons ..).1 h'
      have hk : k = k' := by
        rcases Nat.lt_trichotomy k k' with hlt | heq | hgt
        · have := hget k
          rw [cellsGet, if_pos rfl, cellsGet, if_neg (by omega), cellsGet_below h4' (by omega)] at this
          exact absurd this h3
        · exact heq
        · have := hget k'
          rw [cellsGet, if_neg (by omega), cellsGet_below h4 (by omega), cellsGet, if_pos rfl] at this
          exact absurd this.symm h3'
      subst hk
      have hv : v = v' := by simpa [cellsGet] using hget k
      subst hv
      have hrest : rest = rest' := by
        refine ih h4 h4' fun a => ?_
        by_cases ha : a = k
        · rw [cellsGet_below h4 (by omega), cellsGet_below h4' (by omega)]
        · simpa [cellsGet, Ne.symm ha] using hget a
      rw [hrest]

end Sys2Proof.Machine
end

