-- ==== Sys2Proof/Laws/Format.lean ====
section
/-!
SUPPORT. What CORE's functions answer, case by case: cited in place of unfolding them.
-/

namespace Sys2Proof.Machine

/-- A three-bit index is always in the table's domain, so the lookup answers a name (`42_register_lut.md` R103). -/
theorem regLUT_toNat (c : Config) (w : Bit) (f : BitVec 3) :
    regLUT c w f.toNat = .ok (c.regName w ⟨f.toNat, f.isLt⟩) := by
  simp only [regLUT, f.isLt, dif_pos]

theorem regLUT_above (c : Config) (w : Bit) {f : Nat} (h : 7 < f) : regLUT c w f = .error .invalidRegister := by
  rw [regLUT, dif_neg (by omega)]

theorem opcodeLUT_match (c : Config) : opcodeLUT c c.opcodeMov.toNat = .moveRegister := if_pos rfl

theorem opcodeLUT_other {c : Config} {v : Nat} (h : v ≠ c.opcodeMov.toNat) : opcodeLUT c v = .unrecognized := if_neg h

/-- An unrecognised opcode field fails, whatever the other fields hold (R141). -/
theorem formatFields_other {c : Config} {opcode : BitVec 6} (h : opcode ≠ c.opcodeMov) (d w : Bit) (mod : BitVec 2)
    (reg rm : BitVec 3) : formatFields c opcode d w mod reg rm = .error .invalidInstruction := by
  have hv : opcode.toNat ≠ c.opcodeMov.toNat := fun hn => h (BitVec.eq_of_toNat_eq hn)
  simp only [formatFields, opcodeLUT_other hv, formatSteps]

/-- With the recognised opcode the result is that of the last two steps on the two names looked up (R142). -/
theorem formatFields_mov (c : Config) (d w : Bit) (mod : BitVec 2) (reg rm : BitVec 3) :
    formatFields c c.opcodeMov d w mod reg rm =
      checkModAndCompose c .moveRegister d mod (c.regName w ⟨reg.toNat, reg.isLt⟩)
        (c.regName w ⟨rm.toNat, rm.isLt⟩) := by
  simp only [formatFields, opcodeLUT_match, formatSteps, regLUT_toNat]

theorem checkModAndCompose_bad {c : Config} {mod : BitVec 2} (h : mod ≠ c.modRegDirect) (op : Opcode) (d : Bit)
    (regName rmName : Register) : checkModAndCompose c op d mod regName rmName = .error .invalidInstruction :=
  if_pos h

theorem checkModAndCompose_ok (c : Config) (op : Opcode) (d : Bit) (regName rmName : Register) :
    checkModAndCompose c op d c.modRegDirect regName rmName =
      .ok
        { dst := (selectOperands d regName rmName).1
          src := (selectOperands d regName rmName).2
          text := composeText c op (selectOperands d regName rmName).1 (selectOperands d regName rmName).2 } :=
  if_neg (fun h => h rfl)

@[simp] theorem textOf_ok (f : Formatted) : textOf (.ok f) = .ok f.text := rfl
@[simp] theorem textOf_error (e : DecodeError) : textOf (.error e) = .error e := rfl
@[simp] theorem statusOf_ok (f : Formatted) : statusOf (.ok f) = .ok := rfl
@[simp] theorem formattedOf_ok (f : Formatted) : formattedOf (.ok f) = some f := rfl
@[simp] theorem formattedOf_error (e : DecodeError) : formattedOf (.error e) = none := rfl

@[simp] theorem selectOperands_bit1 (a b : Register) : selectOperands .bit1 a b = (a, b) := rfl
@[simp] theorem selectOperands_bit0 (a b : Register) : selectOperands .bit0 a b = (b, a) := rfl

@[simp] theorem renderRegister_length (r : Register) : (renderRegister r).length = 2 := by cases r <;> rfl

theorem renderRegister_injective {r r' : Register} (h : renderRegister r = renderRegister r') : r = r' := by
  cases r <;> cases r' <;> first | rfl | cases h

end Sys2Proof.Machine
end

