-- ==== Sys2Proof/Laws/State.lean ====
section
/-!
SUPPORT. What each update of the state does to each field, so that no later proof unfolds a record update.
-/

namespace Sys2Proof.Machine

@[simp] theorem raise_input (e : StreamError) (s : State) : (raise e s).input = s.input := rfl
@[simp] theorem raise_pos (e : StreamError) (s : State) : (raise e s).pos = s.pos := rfl
@[simp] theorem raise_listing (e : StreamError) (s : State) : (raise e s).listing = s.listing := rfl
@[simp] theorem raise_outcome (e : StreamError) (s : State) : (raise e s).outcome = .failed e := rfl

@[simp] theorem finish_input (s : State) : (finish s).input = s.input := rfl
@[simp] theorem finish_pos (s : State) : (finish s).pos = s.pos := rfl
@[simp] theorem finish_listing (s : State) : (finish s).listing = s.listing := rfl
@[simp] theorem finish_outcome (s : State) : (finish s).outcome = .done := rfl

@[simp] theorem appendLine_input (text : Text) (s : State) : (appendLine text s).input = s.input := rfl
@[simp] theorem appendLine_pos (text : Text) (s : State) : (appendLine text s).pos = s.pos + 2 := rfl
@[simp] theorem appendLine_listing (text : Text) (s : State) :
    (appendLine text s).listing = s.listing ++ config.lineBreak :: text := rfl
@[simp] theorem appendLine_outcome (text : Text) (s : State) : (appendLine text s).outcome = s.outcome := rfl

@[simp] theorem load_input (bs : List Byte) : (State.load bs).input = Memory.ofBytes bs := rfl
@[simp] theorem load_pos (bs : List Byte) : (State.load bs).pos = 0 := rfl
@[simp] theorem load_listing (bs : List Byte) : (State.load bs).listing = config.header := rfl
@[simp] theorem load_outcome (bs : List Byte) : (State.load bs).outcome = .running := rfl

theorem result_running {s : State} (h : s.outcome = .running) : s.result = none := by
  simp only [State.result, h]

theorem result_done {s : State} (h : s.outcome = .done) : s.result = some (.ok s.listing) := by
  simp only [State.result, h]

theorem result_failed {s : State} {e : StreamError} (h : s.outcome = .failed e) : s.result = some (.error e) := by
  simp only [State.result, h]

end Sys2Proof.Machine
end

