-- ==== Sys2Proof/Laws/Ops.lean ====
section
/-!
SUPPORT. What each shared operation can do, said once.
-/

namespace Sys2Proof.Machine

/-! ## `deliver` -/

theorem deliver_ok {s : State} (h : s.outcome = .running) (text : Text) :
    deliver (.ok text) s = .next (appendLine text s) := by
  simp only [deliver, h]

theorem deliver_error {s : State} (h : s.outcome = .running) (e : DecodeError) :
    deliver (.error e) s = .next (raise (.decode e) s) := by
  simp only [deliver, h]

theorem deliver_done {s : State} (h : s.outcome = .done) (r : Except DecodeError Text) :
    deliver r s = .fault .finished := by
  simp only [deliver, h]

theorem deliver_failed {s : State} {e : StreamError} (h : s.outcome = .failed e) (r : Except DecodeError Text) :
    deliver r s = .fault (.aborted e) := by
  simp only [deliver, h]

/-- Everything `deliver` can do where it answers a next state. -/
theorem deliver_next {r : Except DecodeError Text} {s t : State} (h : deliver r s = .next t) :
    s.outcome = .running ∧
      ((∃ text, r = .ok text ∧ t = appendLine text s) ∨ ∃ e, r = .error e ∧ t = raise (.decode e) s) := by
  cases ho : s.outcome with
  | running =>
    refine ⟨rfl, ?_⟩
    cases r with
    | ok text =>
      rw [deliver_ok ho] at h
      exact .inl ⟨text, rfl, by injection h with h; exact h.symm⟩
    | error e =>
      rw [deliver_error ho] at h
      exact .inr ⟨e, rfl, by injection h with h; exact h.symm⟩
  | done => rw [deliver_done ho] at h; cases h
  | failed e => rw [deliver_failed ho] at h; cases h

/-! ## `fetch` -/

theorem fetch_nothing {s : State} (h : s.input.len ≤ s.pos) : fetch s = .nothing := by
  have hr : remaining s = 0 := by unfold remaining; omega
  simp only [fetch, hr]

theorem fetch_dangling {s : State} (h : s.input.len = s.pos + 1) : fetch s = .dangling := by
  have hr : remaining s = 1 := by unfold remaining; omega
  simp only [fetch, hr]

theorem fetch_chunk {s : State} (h : s.pos + 2 ≤ s.input.len) :
    fetch s = .chunk (cellsGet s.input.cells s.pos) (cellsGet s.input.cells (s.pos + 1)) := by
  obtain ⟨n, hn⟩ : ∃ n, remaining s = n + 2 := ⟨s.input.len - s.pos - 2, by unfold remaining; omega⟩
  simp only [fetch, hn]

/-- The three cases of a fetch exclude each other and leave none out. -/
theorem fetch_cases (s : State) :
    (s.input.len ≤ s.pos ∧ fetch s = .nothing) ∨ (s.input.len = s.pos + 1 ∧ fetch s = .dangling) ∨
      (s.pos + 2 ≤ s.input.len ∧
        fetch s = .chunk (cellsGet s.input.cells s.pos) (cellsGet s.input.cells (s.pos + 1))) := by
  rcases Nat.lt_trichotomy s.input.len (s.pos + 1) with h | h | h
  · exact .inl ⟨by omega, fetch_nothing (by omega)⟩
  · exact .inr (.inl ⟨h, fetch_dangling h⟩)
  · exact .inr (.inr ⟨by omega, fetch_chunk (by omega)⟩)

end Sys2Proof.Machine
end

