-- ==== Sys2Proof/Laws/Step.lean ====
section
/-!
SUPPORT. What an instruction and a step can do, said once: every meaning delivers a result of CORE, and a step ends the
run, fails it for one byte, or runs the instruction of the chunk at the position.
-/

namespace Sys2Proof.Machine

/-- The result of CORE that an instruction's meaning delivers. -/
def resultOf (i : Instr) : Except DecodeError Text :=
  match i with
  | .mov d w reg rm => textOf (formatFields config 0b100010#6 d w 0b11#2 reg rm)
  | .illegalMod00 d w reg rm => textOf (formatFields config 0b100010#6 d w 0b00#2 reg rm)
  | .illegalMod01 d w reg rm => textOf (formatFields config 0b100010#6 d w 0b01#2 reg rm)
  | .illegalMod10 d w reg rm => textOf (formatFields config 0b100010#6 d w 0b10#2 reg rm)
  | .illegalOpcode opcode d w mod reg rm => textOf (formatFields config opcode d w mod reg rm)

theorem exec_eq_deliver (i : Instr) (s : State) : exec i s = deliver (resultOf i) s := by cases i <;> rfl

/-- Everything an instruction can do where it answers a next state. -/
theorem exec_next {i : Instr} {s t : State} (h : exec i s = .next t) :
    s.outcome = .running ∧ ((∃ text, t = appendLine text s) ∨ ∃ e, t = raise (.decode e) s) := by
  rw [exec_eq_deliver] at h
  obtain ⟨hr, ⟨text, -, ht⟩ | ⟨e, -, ht⟩⟩ := deliver_next h
  · exact ⟨hr, .inl ⟨text, ht⟩⟩
  · exact ⟨hr, .inr ⟨e, ht⟩⟩

theorem step_at_end {s : State} (hr : s.outcome = .running) (h : s.input.len ≤ s.pos) :
    step s = .next (finish s) := by
  simp only [step, hr, fetch_nothing h]

theorem step_at_dangling {s : State} (hr : s.outcome = .running) (h : s.input.len = s.pos + 1) :
    step s = .next (raise config.oddPolicy s) := by
  simp only [step, hr, fetch_dangling h]

theorem step_at_chunk {s : State} (hr : s.outcome = .running) (h : s.pos + 2 ≤ s.input.len) :
    step s =
      exec (decodeWord (wordOfBytes (cellsGet s.input.cells s.pos) (cellsGet s.input.cells (s.pos + 1)))) s := by
  simp only [step, hr, fetch_chunk h]

/-- Everything a step can do where it answers a next state. -/
theorem step_next {s t : State} (h : step s = .next t) :
    s.outcome = .running ∧
      ((s.input.len ≤ s.pos ∧ t = finish s) ∨ (s.input.len = s.pos + 1 ∧ t = raise config.oddPolicy s) ∨
        (s.pos + 2 ≤ s.input.len ∧
          exec (decodeWord (wordOfBytes (cellsGet s.input.cells s.pos) (cellsGet s.input.cells (s.pos + 1)))) s =
            .next t)) := by
  cases hr : s.outcome with
  | running =>
    refine ⟨rfl, ?_⟩
    obtain ⟨hle, -⟩ | ⟨heq, -⟩ | ⟨hge, -⟩ := fetch_cases s
    · rw [step_at_end hr hle] at h
      exact .inl ⟨hle, by injection h with h; exact h.symm⟩
    · rw [step_at_dangling hr heq] at h
      exact .inr (.inl ⟨heq, by injection h with h; exact h.symm⟩)
    · rw [step_at_chunk hr hge] at h
      exact .inr (.inr ⟨hge, h⟩)
  | done => simp only [step, hr] at h; cases h
  | failed e => simp only [step, hr] at h; cases h

/-! ## Runs -/

theorem run_zero (s : State) : core.run 0 s = .next s := rfl

/-- A machine's first step in a run, and the rest of the run from the state that step gives. -/
theorem run_succ_of {M : Host.Core} {s t : M.State} (h : M.step s = .next t) (k : Nat) :
    M.run (k + 1) s = M.run k t := by
  simp only [Host.Core.run, h]

theorem run_succ {s t : State} (h : step s = .next t) (k : Nat) : core.run (k + 1) s = core.run k t :=
  run_succ_of (M := core) h k

end Sys2Proof.Machine
end

