-- ==== Sys2Proof/Laws/Fetch.lean ====
section
/-!
SUPPORT. The word of the opcode table that `withFetchWord` lays out is the one the next step runs.
-/

namespace Sys2Proof.Machine

@[simp] theorem withFetchWord_pos (s : State) (nbits w : Nat) : (s.withFetchWord nbits w).pos = s.pos := rfl
@[simp] theorem withFetchWord_listing (s : State) (nbits w : Nat) :
    (s.withFetchWord nbits w).listing = s.listing := rfl
@[simp] theorem withFetchWord_outcome (s : State) (nbits w : Nat) :
    (s.withFetchWord nbits w).outcome = .running := rfl

theorem withFetchWord_input (s : State) (nbits w : Nat) :
    (s.withFetchWord nbits w).input =
      ((s.input.extend (s.pos + 2)).write s.pos (firstByte (tableWord nbits w))).write (s.pos + 1)
        (secondByte (tableWord nbits w)) := rfl

theorem withFetchWord_wf {s : State} (nbits w : Nat) (h : s.input.wf = true) :
    (s.withFetchWord nbits w).input.wf = true :=
  write_wf _ _ (write_wf _ _ (extend_wf _ h))

@[simp] theorem write_len (m : Memory) (addr : Nat) (b : Byte) : (m.write addr b).len = m.len := by
  unfold Memory.write
  split <;> rfl

theorem withFetchWord_len (s : State) (nbits w : Nat) : s.pos + 2 ≤ (s.withFetchWord nbits w).input.len := by
  simp [State.withFetchWord, Memory.extend]

theorem read_eq_cellsGet {m : Memory} {a : Nat} {b : Byte} (h : m.read a = some b) : cellsGet m.cells a = b := by
  unfold Memory.read at h
  split at h
  · injection h
  · cases h

/-- The next step runs exactly the instruction the decoder reads from the table's word. -/
theorem step_withFetchWord {s : State} {nbits w : Nat} {i : Instr} (hwf : s.input.wf = true)
    (h : decodeTableWord nbits w = some i) : step (s.withFetchWord nbits w) = exec i (s.withFetchWord nbits w) := by
  have hlen : s.pos + 2 ≤ (s.input.extend (s.pos + 2)).len := Nat.le_max_right ..
  have hext := extend_wf (s.pos + 2) hwf
  have hfirst := write_wf s.pos (firstByte (tableWord nbits w)) hext
  have h0 : (s.withFetchWord nbits w).input.read s.pos = some (firstByte (tableWord nbits w)) := by
    rw [withFetchWord_input, read_write _ _ _ hfirst (by rw [write_len]; omega), if_neg (by omega),
      read_write _ _ _ hext (by omega), if_pos rfl]
  have h1 : (s.withFetchWord nbits w).input.read (s.pos + 1) = some (secondByte (tableWord nbits w)) := by
    rw [withFetchWord_input, read_write _ _ _ hfirst (by rw [write_len]; omega), if_pos rfl]
  have hi : decodeWord (wordOfBytes (firstByte (tableWord nbits w)) (secondByte (tableWord nbits w))) = i := by
    simpa [decodeTableWord, decode] using h
  rw [step_at_chunk rfl (withFetchWord_len s nbits w), withFetchWord_pos, read_eq_cellsGet h0, read_eq_cellsGet h1, hi]

end Sys2Proof.Machine
end

