-- ==== Sys2Proof/Laws/PerInstr.lean ====
section
/-!
SUPPORT. Statements made for each constructor of `Instr` apart, one lemma a constructor.
-/

namespace Sys2Proof.Laws

/-- Every instruction is exactly two bytes (`30_encoding.md` R52). -/
def TwoBytes.Statement (i : Instr) : Prop := (encode i).length = Machine.config.bytesPerInstr

theorem TwoBytes.mov (d w : Bit) (reg rm : BitVec 3) : TwoBytes.Statement (.mov d w reg rm) := rfl

theorem TwoBytes.illegalMod00 (d w : Bit) (reg rm : BitVec 3) : TwoBytes.Statement (.illegalMod00 d w reg rm) := rfl

theorem TwoBytes.illegalMod01 (d w : Bit) (reg rm : BitVec 3) : TwoBytes.Statement (.illegalMod01 d w reg rm) := rfl

theorem TwoBytes.illegalMod10 (d w : Bit) (reg rm : BitVec 3) : TwoBytes.Statement (.illegalMod10 d w reg rm) := rfl

theorem TwoBytes.illegalOpcode (opcode : BitVec 6) (d w : Bit) (mod : BitVec 2) (reg rm : BitVec 3) :
    TwoBytes.Statement (.illegalOpcode opcode d w mod reg rm) := rfl

/-- The encoding of a well-formed instruction is a word of that instruction's own row of the opcode table, the rows tried
in their order (`30_encoding.md` R55, R56). -/
def OwnRow.Statement (i : Instr) : Prop := i.wf = true → rowOf (encodeWord i) = i.row

theorem OwnRow.mov (d w : Bit) (reg rm : BitVec 3) : OwnRow.Statement (.mov d w reg rm) := fun _ => by
  simp [encodeWord, rowOf_packFields, Instr.row]

theorem OwnRow.illegalMod00 (d w : Bit) (reg rm : BitVec 3) : OwnRow.Statement (.illegalMod00 d w reg rm) :=
  fun _ => by simp [encodeWord, rowOf_packFields, Instr.row]

theorem OwnRow.illegalMod01 (d w : Bit) (reg rm : BitVec 3) : OwnRow.Statement (.illegalMod01 d w reg rm) :=
  fun _ => by simp [encodeWord, rowOf_packFields, Instr.row]

theorem OwnRow.illegalMod10 (d w : Bit) (reg rm : BitVec 3) : OwnRow.Statement (.illegalMod10 d w reg rm) :=
  fun _ => by simp [encodeWord, rowOf_packFields, Instr.row]

theorem OwnRow.illegalOpcode (opcode : BitVec 6) (d w : Bit) (mod : BitVec 2) (reg rm : BitVec 3) :
    OwnRow.Statement (.illegalOpcode opcode d w mod reg rm) := fun h => by
  have hop : opcode ≠ 0b100010#6 := by simpa [Instr.wf] using h
  simp [encodeWord, rowOf_packFields, Instr.row, hop]

end Sys2Proof.Laws
end

