-- ==== Sys2Proof/Laws/Stream.lean ====
section
/-!
SUPPORT. What `decode_stream` and its lines are, case by case.
-/

namespace Sys2Proof.Machine

@[simp] theorem streamLines_nil (c : Config) : streamLines c [] = .ok [] := rfl

@[simp] theorem streamLines_single (c : Config) (b : Byte) : streamLines c [b] = .error c.oddPolicy := rfl

theorem streamLines_pair (c : Config) (b0 b1 : Byte) (rest : List Byte) :
    streamLines c (b0 :: b1 :: rest) = addLine c (coreDecode c b0 b1) (streamLines c rest) := rfl

@[simp] theorem addLine_error (c : Config) (e : DecodeError) (later : Except StreamError Text) :
    addLine c (.error e) later = .error (.decode e) := rfl

@[simp] theorem addLine_ok_error (c : Config) (text : Text) (e : StreamError) :
    addLine c (.ok text) (.error e) = .error e := rfl

@[simp] theorem addLine_ok_ok (c : Config) (text lines : Text) :
    addLine c (.ok text) (.ok lines) = .ok (listingLine c text ++ lines) := rfl

/-- Where lines are added, the chunk decoded and so did every later one. -/
theorem addLine_eq_ok {c : Config} {r : Except DecodeError Text} {later : Except StreamError Text} {all : Text}
    (h : addLine c r later = .ok all) :
    ∃ text lines, r = .ok text ∧ later = .ok lines ∧ all = listingLine c text ++ lines := by
  cases r with
  | error e => cases h
  | ok text =>
    cases later with
    | error e => cases h
    | ok lines => exact ⟨text, lines, rfl, rfl, by injection h with h; exact h.symm⟩

theorem decodeStream_eq_ok {c : Config} {bs : List Byte} {listing : Text} (h : decodeStream c bs = .ok listing) :
    ∃ lines, streamLines c bs = .ok lines ∧ listing = listingStart c ++ lines := by
  unfold decodeStream at h
  cases hs : streamLines c bs with
  | error e => rw [hs] at h; cases h
  | ok lines => rw [hs] at h; exact ⟨lines, rfl, by injection h with h; exact h.symm⟩

theorem decodeStream_of_lines {c : Config} {bs : List Byte} {lines : Text} (h : streamLines c bs = .ok lines) :
    decodeStream c bs = .ok (listingStart c ++ lines) := by
  simp only [decodeStream, h]

theorem decodeStream_of_error {c : Config} {bs : List Byte} {e : StreamError} (h : streamLines c bs = .error e) :
    decodeStream c bs = .error e := by
  simp only [decodeStream, h]

end Sys2Proof.Machine
end

