-- ==== Sys2Proof/Tests/Slice0.lean ====
section
/-!
SUPPORT. Tests. Every expected result is the spec's own: the worked examples and vectors of `95_test_vectors.md`, or a
word written out by hand from `30_encoding.md`. The theorems named `witness` show that the hypotheses of the obligations
can be met together, at the boundaries of their clauses.
-/

namespace Sys2Proof.Tests

open Sys2Proof.Machine

/-- The next state of a step, where there is one. -/
def nextState (o : Host.Outcome State Fault Refusal) : Option State :=
  match o with
  | .next s => some s
  | .fault _ => none
  | .refused _ => none

/-- The fault of a step, where it ends in one. -/
def faultOf (o : Host.Outcome State Fault Refusal) : Option Fault :=
  match o with
  | .next _ => none
  | .fault r => some r
  | .refused _ => none

/-- A running state in the middle of a run, with a line already in its listing. -/
def midway : State := { State.load [0x88, 0xC1, 0x8A] with pos := 2, listing := "bits 16\nmov cl, al".toList }

/-! ## WellFormed: the one check refuses, and its neighbours pass -/

theorem test_wf_refuses_mov_opcode_in_default_row : (Instr.illegalOpcode 0b100010#6 .bit0 .bit1 3#2 0#3 0#3).wf = false := by
  decide

theorem test_wf_accepts_neighbours :
    (Instr.illegalOpcode 0b100001#6 .bit0 .bit1 3#2 0#3 0#3).wf = true ∧
      (Instr.illegalOpcode 0b100011#6 .bit0 .bit1 3#2 0#3 0#3).wf = true := by
  decide

/-! ## Decode: words written out bit by bit, one or more for each row -/

/-- `1000 1001 1101 1001`: opcode `100010`, D 0, W 1, MOD `11`, REG `011`, R/M `001` (section 1, S1). -/
theorem test_decode_mov_d0 : decode [0b10001001#8, 0b11011001#8] = .ok (.mov .bit0 .bit1 3#3 1#3, []) := by decide

/-- D 1, W 0, REG `010`, R/M `110`, with a byte after it (section 8, P6: `8A D6`). -/
theorem test_decode_mov_d1 : decode [0b10001010#8, 0b11010110#8, 0x8B#8] = .ok (.mov .bit1 .bit0 2#3 6#3, [0x8B#8]) := by
  decide

/-- Section 4.2: `8B 1E`. -/
theorem test_decode_mod00 : decode [0b10001011#8, 0b00011110#8] = .ok (.illegalMod00 .bit1 .bit1 3#3 6#3, []) := by decide

/-- Section 4.2: `8A 7F`. -/
theorem test_decode_mod01 : decode [0b10001010#8, 0b01111111#8] = .ok (.illegalMod01 .bit1 .bit0 7#3 7#3, []) := by decide

/-- Section 4.2: `88 BF`. -/
theorem test_decode_mod10 : decode [0b10001000#8, 0b10111111#8] = .ok (.illegalMod10 .bit0 .bit0 7#3 7#3, []) := by decide

/-- Section 4.1: `8C 00`, one above the opcode, and `87 FF`, one below. -/
theorem test_decode_other :
    decode [0b10001100#8, 0b00000000#8] = .ok (.illegalOpcode 0b100011#6 .bit0 .bit0 0#2 0#3 0#3, []) ∧
      decode [0b10000111#8, 0b11111111#8] = .ok (.illegalOpcode 0b100001#6 .bit1 .bit1 3#2 7#3 7#3, []) := by
  decide

theorem test_decode_short : decode [] = .error .noBytes ∧ decode [0x88#8] = .error .danglingByte := by decide

/-- P5: `B8 01` encodes back to its bytes. -/
theorem test_encode_other : encode (.illegalOpcode 0b101110#6 .bit0 .bit0 0#2 0#3 1#3) = [0xB8#8, 0x01#8] := by decide

theorem test_encode_mov : encode (.mov .bit0 .bit1 3#3 1#3) = [0x89#8, 0xD9#8] := by decide

/-- The table's own numbering: `0x88C0` in sixteen bits is `88 C0`. -/
theorem test_table_word :
    decodeTableWord 16 0x88C0 = some (.mov .bit0 .bit0 0#3 0#3) ∧
      decodeTableWord 16 0x8B1E = some (.illegalMod00 .bit1 .bit1 3#3 6#3) ∧
      decodeTableWord 0 0 = some (.illegalOpcode 0#6 .bit0 .bit0 0#2 0#3 0#3) := by
  decide

/-! ## Fields: section 5's rows that set one field at a time -/

theorem test_fields_alone :
    fieldD 0x0200#16 = .bit1 ∧ fieldW 0x0200#16 = .bit0 ∧ fieldW 0x0100#16 = .bit1 ∧ fieldD 0x0100#16 = .bit0 ∧
      fieldMod 0x00C0#16 = 3#2 ∧ fieldReg 0x0038#16 = 7#3 ∧ fieldRm 0x0007#16 = 7#3 ∧ opcodeField 0xFC00#16 = 63#6 ∧
      fieldReg 0x00C7#16 = 0#3 ∧ fieldRm 0x00F8#16 = 0#3 := by
  decide

/-- Section 5: recomposition of `0x8B37`. -/
theorem test_pack : packFields 34#6 .bit1 .bit1 0#2 6#3 7#3 = 0x8B37#16 := by decide

/-! ## Tables: section 6 -/

theorem test_opcode_table :
    opcodeLUT config 33 = .unrecognized ∧ opcodeLUT config 34 = .moveRegister ∧ opcodeLUT config 35 = .unrecognized ∧
      opcodeLUT config 162 = .unrecognized ∧ opcodeLUT config 255 = .unrecognized := by
  decide

theorem test_register_table :
    regLUT config .bit0 7 = .ok .bh ∧ regLUT config .bit1 4 = .ok .sp ∧ regLUT config .bit1 6 = .ok .si ∧
      regLUT config .bit0 8 = .error .invalidRegister ∧ regLUT config .bit1 255 = .error .invalidRegister := by
  decide

/-- R50's columns of right shifts and masks, from the widths of R5. -/
theorem test_layout :
    Field.all.map (fieldLow config) = [10, 9, 8, 6, 3, 0] ∧
      Field.all.map (fieldMask config) = [0xFC00, 0x0200, 0x0100, 0x00C0, 0x0038, 0x0007] := by
  decide

theorem test_alias : registerAlias .bh = some (.bx, .high) ∧ registerAlias .sp = none := by decide

/-! ## Instructions -/

/-- P6: `8A D6` is `mov dl, dh`: D is 1, so REG is the destination. -/
theorem test_mov_d1 :
    (nextState (exec (.mov .bit1 .bit0 2#3 6#3) State.reset)).map (·.listing) = some "bits 16\nmov dl, dh".toList := by
  decide

/-- P6: `89 EC` is `mov sp, bp`: D is 0, so R/M is the destination; the position moves by 2 from the middle of a run. -/
theorem test_mov_d0 :
    (nextState (exec (.mov .bit0 .bit1 5#3 4#3) midway)).map (fun t => (t.listing, t.pos)) =
      some ("bits 16\nmov cl, al\nmov sp, bp".toList, 4) := by
  decide

/-- P2's second chunk, with the state it is met in otherwise unchanged. -/
theorem test_illegal_mod00 :
    nextState (exec (.illegalMod00 .bit1 .bit1 3#3 6#3) midway) =
      some { midway with outcome := .failed (.decode .invalidInstruction) } := by
  decide

theorem test_illegal_mod01 :
    nextState (exec (.illegalMod01 .bit1 .bit0 7#3 7#3) midway) =
      some { midway with outcome := .failed (.decode .invalidInstruction) } := by
  decide

theorem test_illegal_mod10 :
    nextState (exec (.illegalMod10 .bit0 .bit0 7#3 7#3) midway) =
      some { midway with outcome := .failed (.decode .invalidInstruction) } := by
  decide

/-- S4: `FF FF`; MOD is `11`, so the failure is the opcode's alone. -/
theorem test_illegal_opcode :
    nextState (exec (.illegalOpcode 63#6 .bit1 .bit1 3#2 7#3 7#3) midway) =
      some { midway with outcome := .failed (.decode .invalidInstruction) } := by
  decide

/-! ## Steps and whole inputs -/

/-- S1, its first step. -/
theorem test_step_chunk :
    (nextState (step (State.load [0x89, 0xD9]))).map (fun t => (t.pos, t.listing, t.outcome)) =
      some (2, "bits 16\nmov cx, bx".toList, .running) := by
  decide

/-- P3's last step: the dangling byte, nothing but the outcome changed. -/
theorem test_step_dangling : nextState (step midway) = some { midway with outcome := .failed .malformedInput } := by decide

/-- P4: the empty input. -/
theorem test_step_empty :
    (nextState (step (State.load []))).map State.result = some (some (.ok "bits 16".toList)) := by
  decide

theorem test_step_after_end : faultOf (step { State.reset with outcome := .done }) = some .finished := by decide

/-- P1. -/
theorem test_stream_p1 :
    decodeStream config [0x89, 0xD9, 0x88, 0xE5, 0x8B, 0xF3] =
      .ok "bits 16\nmov cx, bx\nmov ch, ah\nmov si, bx".toList := by
  decide

/-- P2, P3 and P5, and R168's own corner cases. -/
theorem test_stream_failures :
    decodeStream config [0x89, 0xD8, 0x8B, 0x1E, 0x89, 0xC1] = .error (.decode .invalidInstruction) ∧
      decodeStream config [0x88, 0xC1, 0x8A] = .error .malformedInput ∧
      decodeStream config [0xB8, 0x01, 0x00] = .error (.decode .invalidInstruction) ∧
      decodeStream config [0xFF, 0xFF, 0x88] = .error (.decode .invalidInstruction) := by
  decide

/-- A zero byte is a byte of the input like any other: `00 00` is there, is read, and fails on its opcode. -/
theorem test_zero_bytes :
    (State.load [0x00, 0x00]).input.memRead 0 2 = some [0x00, 0x00] ∧
      (State.load [0x00, 0x00]).input.memRead 1 2 = none ∧
      (nextState (step (State.load [0x00, 0x00]))).map (·.outcome) = some (.failed (.decode .invalidInstruction)) := by
  decide

/-- The table's word laid out after reset is run by the next step. -/
theorem test_with_fetch_word :
    (nextState (step (State.reset.withFetchWord 16 0x89D9))).map (·.listing) = some "bits 16\nmov cx, bx".toList := by
  decide

/-! ## Witnesses: the hypotheses of the obligations can be met -/

theorem witness_wellformed_of_each_row :
    (Instr.mov .bit1 .bit1 7#3 0#3).wf = true ∧ (Instr.illegalMod00 .bit0 .bit0 0#3 7#3).wf = true ∧
      (Instr.illegalMod01 .bit0 .bit0 0#3 7#3).wf = true ∧ (Instr.illegalMod10 .bit0 .bit0 0#3 7#3).wf = true ∧
      (Instr.illegalOpcode 0#6 .bit0 .bit0 0#2 0#3 0#3).wf = true := by
  decide

theorem witness_reg_lut : regLUT config .bit1 7 = .ok .di ∧ 7 < 8 ∧ regLUT config .bit1 8 = .error .invalidRegister := by
  decide

/-- Both ends of each field, counted from the most significant bit of the word. -/
theorem witness_field_ends :
    (opcodeField 0x8000#16).getMsbD 0 = true ∧ (opcodeField 0x0400#16).getMsbD 5 = true ∧
      (fieldMod 0x0080#16).getMsbD 0 = true ∧ (fieldMod 0x0040#16).getMsbD 1 = true ∧
      (fieldReg 0x0020#16).getMsbD 0 = true ∧ (fieldReg 0x0008#16).getMsbD 2 = true ∧
      (fieldRm 0x0004#16).getMsbD 0 = true ∧ (fieldRm 0x0001#16).getMsbD 2 = true := by
  decide

theorem witness_equal_names :
    config.regName .bit1 7 = config.regName .bit1 7 ∧ renderRegister .di = renderRegister .di ∧
      config.regName .bit0 7 ≠ config.regName .bit1 7 := by
  decide

theorem witness_other_opcode :
    opcodeField 0x87FF#16 ≠ 0b100010#6 ∧ opcodeField 0x8C00#16 ≠ 0b100010#6 ∧ opcodeField 0x00C0#16 ≠ 0b100010#6 := by
  decide

theorem witness_other_mod :
    (opcodeField 0x8BBF#16 = 0b100010#6 ∧ fieldMod 0x8BBF#16 ≠ 0b11#2) ∧
      opcodeField 0x8800#16 = 0b100010#6 ∧ fieldMod 0x8800#16 ≠ 0b11#2 := by
  decide

theorem witness_masked_words :
    0x88C0#16 &&& 0xFCC0#16 = 0x88C0#16 ∧ 0x8BFF#16 &&& 0xFCC0#16 = 0x88C0#16 ∧
      ¬ (0x8BBF#16 &&& 0xFCC0#16 = 0x88C0#16) := by
  decide

theorem witness_ok_text : formatInstruction { config with regName := regNameTable } 0x89D9#16 = .ok "mov cx, bx".toList := by
  decide

/-- The five branches of the order of the checks, each at its boundary. -/
theorem witness_checks :
    formatSteps config .unrecognized .bit0 .bit0 0#2 8 8 = .error .invalidInstruction ∧
      formatSteps config .moveRegister .bit0 .bit0 0#2 8 8 = .error .invalidRegister ∧
      formatSteps config .moveRegister .bit0 .bit0 0#2 7 8 = .error .invalidRegister ∧
      formatSteps config .moveRegister .bit0 .bit0 2#2 7 7 = .error .invalidInstruction ∧
      (formatSteps config .moveRegister .bit0 .bit0 3#2 7 0).isOk = true := by
  decide

theorem witness_flip :
    formatWord { config with regName := regNameTable } 0x89D9#16 =
        .ok { dst := .cx, src := .bx, text := "mov cx, bx".toList } ∧
      formatWord { config with regName := regNameTable } (0x89D9#16 ^^^ 0x0200#16) =
        .ok { dst := .bx, src := .cx, text := "mov bx, cx".toList } := by
  decide

/-- `89 D9` and `8B CB` have the same text (R145's example); `89 D9` and `89 CB` have not. -/
theorem witness_two_encodings :
    0x89D9#16 &&& 0xFCC0#16 = 0x88C0#16 ∧ 0x8BCB#16 &&& 0xFCC0#16 = 0x88C0#16 ∧
      formatInstruction config 0x89D9#16 = formatInstruction config 0x8BCB#16 ∧
      0x8BCB#16 = packFields 0b100010#6 (Bit.not (fieldD 0x89D9#16)) (fieldW 0x89D9#16) 0b11#2 (fieldRm 0x89D9#16)
        (fieldReg 0x89D9#16) ∧
      0x89CB#16 &&& 0xFCC0#16 = 0x88C0#16 ∧ formatInstruction config 0x89D9#16 ≠ formatInstruction config 0x89CB#16 := by
  decide

theorem witness_source_fixed_entries :
    regNameTable .bit0 0 = .al ∧ regNameTable .bit1 1 = .cx ∧ regNameTable .bit1 3 = .bx := by
  decide

/-- Section 5's rows `89 D9` and `8B 37`: the second fails, and its seven always-valid ports have their values all the
same; `FF FF` fails on its opcode. -/
theorem witness_ports :
    0x89D9#16 = wordOfBytesIn config.wordByteOrder 0x89#8 0xD9#8 ∧
      0xD989#16 = wordOfBytesIn .firstLeastSignificant 0x89#8 0xD9#8 ∧
      (ports config 0x89#8 0xD9#8).status = .ok ∧ (ports config 0x89#8 0xD9#8).dst = some .cx ∧
      ports config 0x8B#8 0x37#8 =
        { word := 0x8B37#16, op := .moveRegister, d := .bit1, w := .bit1, mod := 0#2, reg := 6#3, rm := 7#3,
          status := .invalidInstruction, dst := none, src := none, text := none } ∧
      (ports config 0xFF#8 0xFF#8).op = .unrecognized ∧ (ports config 0xFF#8 0xFF#8).status = .invalidInstruction := by
  decide

theorem witness_running : State.reset.outcome = .running ∧ midway.outcome = .running ∧
    (0b100001#6 ≠ 0b100010#6 ∧ 0b100011#6 ≠ 0b100010#6) := by
  decide

/-- Every row's instruction answers a next state, so the frame's hypotheses are met for each. -/
theorem witness_frame :
    (nextState (exec (.mov .bit0 .bit0 0#3 0#3) midway)).isSome = true ∧
      (nextState (exec (.illegalMod00 .bit0 .bit0 0#3 0#3) midway)).isSome = true ∧
      (nextState (exec (.illegalMod01 .bit0 .bit0 0#3 0#3) midway)).isSome = true ∧
      (nextState (exec (.illegalMod10 .bit0 .bit0 0#3 0#3) midway)).isSome = true ∧
      (nextState (exec (.illegalOpcode 0#6 .bit0 .bit0 0#2 0#3 0#3) midway)).isSome = true := by
  decide

/-- A chunk at the position, at the very end of the input: fetched, read by `MemRead`, decoded, and not failing. -/
theorem witness_chunk :
    fetch (State.load [0x89, 0xD9]) = .chunk 0x89 0xD9 ∧ (State.load [0x89, 0xD9]).input.memRead 0 2 = some [0x89, 0xD9] ∧
      (State.load [0x89, 0xD9]).outcome = .running ∧ decode [0x89#8, 0xD9#8] = .ok (.mov .bit0 .bit1 3#3 1#3, []) ∧
      coreDecode config 0x89 0xD9 = .ok "mov cx, bx".toList ∧ (State.load [0x89, 0xD9]).chunkReady := by
  decide

theorem witness_failed_chunk :
    (State.load [0x8B, 0x1E]).input.memRead 0 2 = some [0x8B, 0x1E] ∧ (State.load [0x8B, 0x1E]).outcome = .running ∧
      coreDecode config 0x8B 0x1E = .error .invalidInstruction := by
  decide

theorem witness_at_end : State.reset.outcome = .running ∧ State.reset.pos = State.reset.input.len := by decide

theorem witness_dangling : midway.outcome = .running ∧ midway.pos + 1 = midway.input.len := by decide

theorem witness_ended :
    ({ State.reset with outcome := .done } : State).outcome = .done ∧
      ({ State.reset with outcome := .failed .malformedInput } : State).outcome = .failed .malformedInput := by
  decide

/-- Both ways a step can go: the run ends, or the position moves. -/
theorem witness_steps :
    (nextState (step State.reset)).map (·.outcome) = some .done ∧
      (nextState (step (State.load [0x89, 0xD9]))).map (·.outcome) = some .running := by
  decide

/-- Two inputs that differ after the chunk. -/
theorem witness_same_chunk :
    (State.load [0x89, 0xD9]).input.memRead 0 2 = (State.load [0x89, 0xD9, 0x00]).input.memRead 0 2 ∧
      (State.load [0x89, 0xD9]).listing = (State.load [0x89, 0xD9, 0x00]).listing ∧
      (State.load [0x89, 0xD9]).outcome = (State.load [0x89, 0xD9, 0x00]).outcome ∧
      (State.load [0x89, 0xD9]).input ≠ (State.load [0x89, 0xD9, 0x00]).input := by
  decide

/-- The invariant in the middle of a run and in each way it can end. -/
theorem witness_invariant :
    midway.Inv ∧ ({ midway with outcome := .failed .malformedInput } : State).Inv ∧
      ({ State.load [0x8B, 0x1E] with outcome := .failed (.decode .invalidInstruction) } : State).Inv ∧
      ({ State.reset with outcome := .done } : State).Inv := by
  decide

/-- The invariant rules out a position off the chunks, a listing that lacks a line, and a run done too early. -/
theorem test_invariant_refuses :
    ¬ ({ midway with pos := 1 } : State).Inv ∧ ¬ ({ midway with listing := "bits 16".toList } : State).Inv ∧
      ¬ ({ midway with outcome := .done } : State).Inv := by
  decide

theorem witness_lines :
    [((0x89#8 : Byte), (0xD9#8 : Byte)), (0x88#8, 0xC0#8)].map (fun p => coreDecode config p.1 p.2) =
      ["mov cx, bx".toList, "mov al, al".toList].map Except.ok := by
  decide

/-- The same lines in the layout C2 turns down: a line break after the header and after each line. -/
theorem witness_lines_other_layout :
    coreDecode { config with listingLayout := .breakAfterEachLine } 0x88 0xC0 = .ok "mov al, al".toList ∧
      decodeStream { config with listingLayout := .breakAfterEachLine } [0x88, 0xC0] =
        .ok "bits 16\nmov al, al\n".toList ∧
      decodeStream { config with listingLayout := .breakAfterEachLine } [] = .ok "bits 16\n".toList := by
  decide

theorem witness_listing : decodeStream config [0x88, 0xC0] = .ok "bits 16\nmov al, al".toList := by decide

theorem witness_first_failing :
    [(0x88#8 : Byte), 0xC0#8].length % 2 = 0 ∧ decodeStream config [0x88, 0xC0] = .ok "bits 16\nmov al, al".toList ∧
      coreDecode config 0xFF 0xFF = .error .invalidInstruction := by
  decide

/-- Both ends of the characters the encoding carries, and a record that admits no input of three bytes. -/
theorem witness_parameters :
    (Char.ofNat 0).toNat < 128 ∧ (Char.ofNat 127).toNat < 128 ∧ (config.textEncoding (Char.ofNat 127)).toNat = 127 ∧
      lengthAdmitted { config with maxInputLength := some 2 } 2 = true ∧
      lengthAdmitted { config with maxInputLength := some 2 } 3 = false ∧
      widthsFit { config with regIndexBits := 4 } = false := by
  decide

theorem witness_lengths : [(0x88#8 : Byte)].length % 2 = 1 ∧ ([] : List Byte).length % 2 = 0 := by decide

end Sys2Proof.Tests
end

section
/-!
Proofs of the family `20_memory.md`: what `MemRead` answers on a laid-out sequence, and that a fetched chunk is one.
-/

namespace Sys2Proof.Machine

/-- On a laid-out sequence `MemRead` is the list's slice, within the sequence and nowhere else (`20_memory.md` R31). -/
theorem memRead_ofBytes (bs : List Byte) (addr n : Nat) :
    (Memory.ofBytes bs).memRead addr n = if addr + n ≤ bs.length then some ((bs.drop addr).take n) else none := by
  rw [Memory.memRead, ofBytes_len]
  refine if_ctx_congr Iff.rfl (fun hwithin => congrArg some ?_) fun _ => rfl
  apply List.ext_getElem
  · simp only [List.length_map, List.length_range, List.length_take, List.length_drop]
    omega
  · intro k hk _
    have hkn : k < n := by simpa using hk
    have hbyte : cellsGet (Memory.ofBytes bs).cells (addr + k) = bs.getD (addr + k) unlistedByte := by
      simpa [Memory.ofBytes] using cellsGet_cellsOfBytes 0 bs (addr + k)
    have hbound : addr + k < bs.length := by omega
    simp [hbyte, hbound]

/-- A fetch answers a chunk only when two bytes are unread, and the chunk is those two bytes. -/
theorem fetch_eq_chunk {s : State} {b0 b1 : Byte} (h : fetch s = .chunk b0 b1) :
    s.pos + 2 ≤ s.input.len ∧ cellsGet s.input.cells s.pos = b0 ∧ cellsGet s.input.cells (s.pos + 1) = b1 := by
  obtain ⟨-, hf⟩ | ⟨-, hf⟩ | ⟨hunread, hf⟩ := fetch_cases s <;> rw [hf] at h
  · cases h
  · cases h
  · injection h with h0 h1
    exact ⟨hunread, h0, h1⟩

/-- What a step reads as a chunk is `MemRead(pos, 2)` (`45_sequencer.md` R161). -/
theorem memRead_of_fetch_chunk {s : State} {b0 b1 : Byte} (h : fetch s = .chunk b0 b1) :
    s.input.memRead s.pos 2 = some [b0, b1] := by
  obtain ⟨hunread, h0, h1⟩ := fetch_eq_chunk h
  rw [memRead_two hunread, h0, h1]

/-- Settles O27: the slice by comparing bytes position by position, the chunk by the cases of a fetch. -/
theorem memReadIsASliceOfTheInput : Obligations.MemReadIsASliceOfTheInput :=
  ⟨memRead_ofBytes, fun _ _ _ => memRead_of_fetch_chunk⟩

end Sys2Proof.Machine
end

section
/-!
Proofs of the family `30_encoding.md`: what a word that decodes is and gives, and the grammar of its text.
-/

namespace Sys2Proof.Machine

/-- Only the recognised opcode in register-direct mode gives a result: the two names in the order D chooses, and the text
composed of them (`44_formatter.md` R141 to R144). -/
theorem formatFields_eq_ok {c : Config} {opcode : BitVec 6} {d w : Bit} {mod : BitVec 2} {reg rm : BitVec 3}
    {f : Formatted} (h : formatFields c opcode d w mod reg rm = .ok f) :
    opcode = c.opcodeMov ∧ mod = c.modRegDirect ∧
      (f.dst, f.src) = selectOperands d (c.regName w ⟨reg.toNat, reg.isLt⟩) (c.regName w ⟨rm.toNat, rm.isLt⟩) ∧
      f.text = composeText c .moveRegister f.dst f.src := by
  by_cases hop : opcode = c.opcodeMov
  · subst hop
    rw [formatFields_mov] at h
    by_cases hmod : mod = c.modRegDirect
    · subst hmod
      rw [checkModAndCompose_ok] at h
      cases h
      exact ⟨rfl, rfl, rfl, rfl⟩
    · rw [checkModAndCompose_bad hmod] at h
      cases h
  · rw [formatFields_other hop] at h
    cases h

theorem formatInstruction_of_formatWord {c : Config} {word : Word} {f : Formatted} (h : formatWord c word = .ok f) :
    formatInstruction c word = .ok f.text := by
  rw [formatInstruction, h, textOf_ok]

/-- The separators and the mnemonic are this hardware's whatever the register table is (`30_encoding.md` R58). -/
theorem composeText_mov (regName : Bit → Fin 8 → Register) (dst src : Register) :
    composeText { config with regName := regName } .moveRegister dst src =
      "mov".toList ++ [' '] ++ renderRegister dst ++ [',', ' '] ++ renderRegister src := by
  simp [composeText, renderOpcode, config]

/-- Settles O15: a word that decodes has the text composed of its operands, and that text is the grammar's. -/
theorem okTextHasTheGrammar : Obligations.OkTextHasTheGrammar := by
  intro regName word f h
  obtain ⟨-, -, -, htext⟩ := formatFields_eq_ok h
  exact ⟨formatInstruction_of_formatWord h, htext.trans (composeText_mov regName f.dst f.src),
    renderRegister_length f.dst, renderRegister_length f.src⟩

end Sys2Proof.Machine
end

section
/-!
Proofs of the family `41_opcode_lut.md`: the one code the opcode table knows, and the placeholder, which has a character
(`n`) that the block never writes.
-/

namespace Sys2Proof.Machine

/-- Settles O7: the two cases of the opcode table, a six-bit value being known by its number. -/
theorem opcodeTableKnowsOneCode : Obligations.OpcodeTableKnowsOneCode := by
  intro v
  by_cases hv : v = 0b100010#6
  · rw [if_pos hv, hv]
    exact opcodeLUT_match config
  · rw [if_neg hv]
    exact opcodeLUT_other fun hn => hv (BitVec.eq_of_toNat_eq hn)

/-! ## The characters of the output -/

/-- The characters of everything the block can write: the header, the line break, and the parts of an instruction text
(`30_encoding.md` R58, `45_sequencer.md` R163). -/
def outputAlphabet (c : Config) : Text :=
  c.header ++ c.lineBreak :: ' ' :: (c.mnemonicMov ++ c.operandSeparator ++ Register.all.flatMap renderRegister)

theorem mem_registerAll (r : Register) : r ∈ Register.all := by cases r <;> decide

theorem renderRegister_subset (r : Register) : renderRegister r ⊆ Register.all.flatMap renderRegister :=
  fun _ hch => List.mem_flatMap.2 ⟨r, mem_registerAll r, hch⟩

theorem composeText_subset (c : Config) (dst src : Register) :
    composeText c .moveRegister dst src ⊆ outputAlphabet c := by
  have hdst := renderRegister_subset dst
  have hsrc := renderRegister_subset src
  intro ch hch
  simp only [composeText, renderOpcode, List.mem_append, List.mem_cons] at hch
  simp only [outputAlphabet, List.mem_append, List.mem_cons]
  rcases hch with h | h | h | h | h
  · simp [h]
  · simp [h]
  · simp [hdst h]
  · simp [h]
  · simp [hsrc h]

/-- A text that CORE gives is composed of the mnemonic and two register names (`44_formatter.md` R144). -/
theorem coreDecode_eq_ok {c : Config} {b0 b1 : Byte} {text : Text} (h : coreDecode c b0 b1 = .ok text) :
    ∃ dst src, text = composeText c .moveRegister dst src := by
  unfold coreDecode formatInstruction at h
  cases hf : formatWord c (wordOfBytesIn c.wordByteOrder b0 b1) with
  | error e => rw [hf] at h; cases h
  | ok f =>
    rw [hf, textOf_ok] at h
    obtain ⟨-, -, -, htext⟩ := formatFields_eq_ok hf
    cases h
    exact ⟨f.dst, f.src, htext⟩

theorem coreDecode_subset {c : Config} {b0 b1 : Byte} {text : Text} (h : coreDecode c b0 b1 = .ok text) :
    text ⊆ outputAlphabet c := by
  obtain ⟨dst, src, rfl⟩ := coreDecode_eq_ok h
  exact composeText_subset c dst src

theorem header_subset (c : Config) : c.header ⊆ outputAlphabet c := List.subset_append_left ..

theorem lineBreak_mem (c : Config) : c.lineBreak ∈ outputAlphabet c := by simp [outputAlphabet]

theorem listingStart_subset (c : Config) : listingStart c ⊆ outputAlphabet c := by
  unfold listingStart
  split
  · exact header_subset c
  · exact List.append_subset.2 ⟨header_subset c, by simp [lineBreak_mem]⟩

theorem listingLine_subset {c : Config} {text : Text} (h : text ⊆ outputAlphabet c) :
    listingLine c text ⊆ outputAlphabet c := by
  unfold listingLine
  split
  · exact List.cons_subset.2 ⟨lineBreak_mem c, h⟩
  · exact List.append_subset.2 ⟨h, by simp [lineBreak_mem]⟩

theorem streamLines_subset {c : Config} (bs : List Byte) {lines : Text} (h : streamLines c bs = .ok lines) :
    lines ⊆ outputAlphabet c := by
  induction bs using streamLines.induct generalizing lines with
  | case1 => cases h; exact List.nil_subset _
  | case2 b => cases h
  | case3 b0 b1 rest ih =>
    rw [streamLines_pair] at h
    obtain ⟨text, later, htext, hlater, rfl⟩ := addLine_eq_ok h
    exact List.append_subset.2 ⟨listingLine_subset (coreDecode_subset htext), ih hlater⟩

/-- Every character of a listing is of the output's alphabet, for any configuration. -/
theorem decodeStream_subset {c : Config} {bs : List Byte} {listing : Text} (h : decodeStream c bs = .ok listing) :
    listing ⊆ outputAlphabet c := by
  obtain ⟨lines, hlines, rfl⟩ := decodeStream_eq_ok h
  exact List.append_subset.2 ⟨listingStart_subset c, streamLines_subset bs hlines⟩

/-! ## The placeholder -/

/-- The placeholder has an `n`, which is no character of this hardware's output (`41_opcode_lut.md` R92). -/
theorem placeholder_not_part {t : Text} (h : t ⊆ outputAlphabet config) :
    ¬ renderOpcode config .unrecognized <:+: t := by
  have hn : 'n' ∈ renderOpcode config .unrecognized := by decide
  have hout : 'n' ∉ outputAlphabet config := by decide
  exact fun hpart => hout (h (hpart.subset hn))

/-- Settles O46: every text and every listing is written in the output's alphabet, which the placeholder is not. -/
theorem placeholderNeverAppears : Obligations.PlaceholderNeverAppears :=
  ⟨by decide, by decide, fun _ _ _ h => placeholder_not_part (coreDecode_subset h),
    fun _ _ h => placeholder_not_part (decodeStream_subset h)⟩

end Sys2Proof.Machine
end

section
/-!
Proofs of the family `42_register_lut.md`: the lookup inside and outside its domain, and the names' rendering.
-/

namespace Sys2Proof.Machine

/-- Settles O8: an index from 0 to 7 is a three-bit index, which the table names; above 7 the lookup fails. -/
theorem regLutGivesNameOrError : Obligations.RegLutGivesNameOrError :=
  fun c w => ⟨fun f => regLUT_toNat c w (.ofFin f), fun _ => regLUT_above c w⟩

/-- Settles O10: the sixteen spellings are evaluated; completeness, length and injectivity go by the register. -/
theorem registersRenderAsTheirNames : Obligations.RegistersRenderAsTheirNames :=
  ⟨by decide, mem_registerAll, renderRegister_length, fun _ _ => renderRegister_injective⟩

end Sys2Proof.Machine
end

section
/-!
Proofs of the family `43_field_decoder.md`: word construction is the two bytes set side by side, masking and shifting is
taking a slice of the word, and D chooses which operand REG names.
-/

namespace Sys2Proof.Machine

/-! ## Word construction -/

/-- R120: `{b0, b1}`, the first byte above the second. -/
theorem wordOfBytes_eq_append (b0 b1 : Byte) : wordOfBytes b0 b1 = b0 ++ b1 := by
  calc wordOfBytes b0 b1 = b0.setWidth 16 <<< 8 ||| b1.setWidth 16 := rfl
    _ = (b0 ++ b1).setWidth 16 := BitVec.setWidth_append_eq_shiftLeft_setWidth_or.symm
    _ = b0 ++ b1 := BitVec.setWidth_eq _

theorem wordOfBytes_high (b0 b1 : Byte) : (wordOfBytes b0 b1).extractLsb' 8 8 = b0 := by
  rw [wordOfBytes_eq_append]
  exact BitVec.extractLsb'_append_eq_left

theorem wordOfBytes_low (b0 b1 : Byte) : (wordOfBytes b0 b1).extractLsb' 0 8 = b1 := by
  rw [wordOfBytes_eq_append]
  exact BitVec.extractLsb'_append_eq_right

theorem wordOfBytes_halves (word : Word) : wordOfBytes (word.extractLsb' 8 8) (word.extractLsb' 0 8) = word := by
  rw [wordOfBytes_eq_append]
  exact (BitVec.extractLsb'_append_extractLsb'_eq_extractLsb' (rfl : 8 = 0 + 8)).trans BitVec.extractLsb'_eq_self

/-- Settles O1: the bytes of a word are its two halves, so the halves are the one pair that forms it. -/
theorem wordFromBytesPutsFirstByteHigh : Obligations.WordFromBytesPutsFirstByteHigh := by
  refine ⟨fun b0 b1 => ⟨wordOfBytes_high b0 b1, wordOfBytes_low b0 b1⟩, fun word =>
    ⟨(word.extractLsb' 8 8, word.extractLsb' 0 8), wordOfBytes_halves word, ?_⟩⟩
  rintro ⟨b0, b1⟩ rfl
  exact Prod.ext (wordOfBytes_high b0 b1).symm (wordOfBytes_low b0 b1).symm

/-! ## The accessors -/

theorem fieldLow_add_fieldWidth_le (f : Field) :
    fieldLow config f + fieldWidth config f ≤ 16 := by
  cases f <;> decide

/-- A field's mask has exactly the field's bits (`30_encoding.md` R50). -/
theorem testBit_fieldMask (f : Field) (i : Nat) :
    (fieldMask config f).testBit (fieldLow config f + i) =
      decide (i < fieldWidth config f) := by
  simp [fieldMask, Nat.testBit_mul_two_pow, Nat.testBit_two_pow_sub_one]

/-- Masking and shifting moves a field's bits to the right and leaves nothing above them (R129). -/
theorem getLsbD_fieldBits (f : Field) (word : Word) (i : Nat) :
    (fieldBits f word).getLsbD i =
      (decide (i < fieldWidth config f) && word.getLsbD (fieldLow config f + i)) := by
  have hmask := testBit_fieldMask f i
  by_cases hi : i < fieldWidth config f
  · have hin : fieldLow config f + i < 16 := by
      have hle := fieldLow_add_fieldWidth_le f
      omega
    simp [fieldBits, BitVec.getLsbD_ofNat, hmask, hi, hin]
  · simp [fieldBits, BitVec.getLsbD_ofNat, hmask, hi]

/-- A field cut to its width is the slice of the word that R121 to R126 give as its encoding. -/
theorem fieldBits_setWidth (f : Field) (word : Word) :
    (fieldBits f word).setWidth (fieldWidth config f) =
      word.extractLsb' (fieldLow config f) (fieldWidth config f) := by
  ext i hi
  simp [getLsbD_fieldBits, hi, ← BitVec.getLsbD_eq_getElem]

/-- A field of one bit equals 1 exactly when the word has that bit. -/
theorem fieldBits_beq_one {f : Field} (hone : fieldWidth config f = 1) (word : Word) :
    (fieldBits f word == 1#16) = word.getLsbD (fieldLow config f) := by
  have hbits : fieldBits f word = (BitVec.ofBool (word.getLsbD (fieldLow config f))).setWidth 16 := by
    apply BitVec.eq_of_getLsbD_eq
    intro i hi
    rw [getLsbD_fieldBits, hone, BitVec.getLsbD_setWidth, BitVec.getLsbD_ofBool]
    cases i <;> simp [hi]
  rw [hbits]
  cases word.getLsbD (fieldLow config f) <;> rfl

theorem opcodeField_slice (word : Word) : opcodeField word = word.extractLsb' 10 6 := fieldBits_setWidth .opcode word

theorem fieldMod_slice (word : Word) : fieldMod word = word.extractLsb' 6 2 := fieldBits_setWidth .mod word

theorem fieldReg_slice (word : Word) : fieldReg word = word.extractLsb' 3 3 := fieldBits_setWidth .reg word

theorem fieldRm_slice (word : Word) : fieldRm word = word.extractLsb' 0 3 := fieldBits_setWidth .rm word

theorem fieldD_bit (word : Word) : fieldD word = Bit.fromBool (word.getLsbD 9) :=
  congrArg Bit.fromBool (fieldBits_beq_one (f := .d) rfl word)

theorem fieldW_bit (word : Word) : fieldW word = Bit.fromBool (word.getLsbD 8) :=
  congrArg Bit.fromBool (fieldBits_beq_one (f := .w) rfl word)

/-- A slice read from its most significant bit is the word read from its own, as the source counts. -/
theorem getMsbD_slice (word : Word) {low width i j : Nat} (hi : i < width) (hj : low + width + j = 16 + i) :
    (word.extractLsb' low width).getMsbD i = word.getMsbD j := by
  have hin : low + width - i ≤ 16 := by omega
  have hpos : 16 - (low + width - i) = j := by omega
  rw [BitVec.getMsbD_extractLsb', hpos, decide_eq_true hi, decide_eq_true hin, Bool.true_and, Bool.true_and]

/-- Settles O2: each accessor is a slice of the word, and a slice counted from the other end reads the same bits. -/
theorem accessorsReadTheirFields : Obligations.AccessorsReadTheirFields := by
  intro word
  rw [opcodeField_slice, fieldMod_slice, fieldReg_slice, fieldRm_slice]
  refine ⟨⟨rfl, fun i hi => getMsbD_slice word hi (by omega), fun c => ?_⟩, ⟨fieldD_bit word, fieldD_bit word⟩,
    ⟨fieldW_bit word, fieldW_bit word⟩, ⟨rfl, fun i hi => getMsbD_slice word hi (by omega)⟩,
    ⟨rfl, fun i hi => getMsbD_slice word hi (by omega)⟩, ⟨rfl, fun i hi => getMsbD_slice word hi (by omega)⟩⟩
  rw [opcodeOf, opcodeField_slice]

/-! ## The operand multiplexer -/

/-- Settles O11: the multiplexer's two settings of D, both names having been looked up with one width flag. -/
theorem directionChoosesDestination : Obligations.DirectionChoosesDestination := by
  intro c w reg rm
  have hresult := fun d => (formatFields_mov c d w c.modRegDirect reg rm).trans (checkModAndCompose_ok ..)
  exact ⟨⟨_, hresult .bit1⟩, ⟨_, hresult .bit0⟩⟩

end Sys2Proof.Machine
end

section
/-!
Proofs of the family `44_formatter.md`: the two checks of CORE that fail a word, for any configuration, and their error
as the error of `format_instruction`.
-/

namespace Sys2Proof.Machine

/-- The opcode check fails a word before any other field matters (`44_formatter.md` R141). -/
theorem formatWord_otherOpcode {c : Config} {word : Word} (hop : opcodeField word ≠ c.opcodeMov) :
    formatWord c word = .error .invalidInstruction :=
  formatFields_other hop ..

/-- The MOD check fails a word whose opcode is recognised, both lookups before it having succeeded (R142, R143). -/
theorem formatWord_otherMod {c : Config} {word : Word} (hop : opcodeField word = c.opcodeMov)
    (hmod : fieldMod word ≠ c.modRegDirect) : formatWord c word = .error .invalidInstruction := by
  rw [formatWord, hop, formatFields_mov, checkModAndCompose_bad hmod]

/-- A failure of CORE is returned unchanged (R148). -/
theorem formatInstruction_of_formatWord_error {c : Config} {word : Word} {e : DecodeError}
    (h : formatWord c word = .error e) : formatInstruction c word = .error e := by
  rw [formatInstruction, h, textOf_error]

/-- Settles O12: the opcode check on the word, the supported code being this hardware's for any register table. -/
theorem otherOpcodeIsInvalidInstruction : Obligations.OtherOpcodeIsInvalidInstruction :=
  fun _ _ hop => formatInstruction_of_formatWord_error (formatWord_otherOpcode hop)

/-- Settles O13: the opcode check passes and the MOD check fails, for any register table. -/
theorem otherModIsInvalidInstruction : Obligations.OtherModIsInvalidInstruction :=
  fun _ _ hop hmod => formatInstruction_of_formatWord_error (formatWord_otherMod hop hmod)

end Sys2Proof.Machine
end

section
/-!
Proofs of the family `60_exceptions.md`: CORE fails a word with `InvalidInstruction` alone, so a byte sequence and a step
fail with that or with the odd policy's error; and the formatter's checks one by one, each lemma assuming that those before
it passed.
-/

namespace Sys2Proof.Machine

/-! ## The errors that reach a caller -/

/-- Both register indices of a word are three bits wide, so only the opcode check and the MOD check can fail
(`60_exceptions.md` R185). -/
theorem formatFields_eq_error {c : Config} {opcode : BitVec 6} {d w : Bit} {mod : BitVec 2} {reg rm : BitVec 3}
    {e : DecodeError} (h : formatFields c opcode d w mod reg rm = .error e) : e = .invalidInstruction := by
  by_cases hop : opcode = c.opcodeMov
  · subst hop
    rw [formatFields_mov] at h
    by_cases hmod : mod = c.modRegDirect
    · subst hmod
      rw [checkModAndCompose_ok] at h
      cases h
    · rw [checkModAndCompose_bad hmod] at h
      cases h
      rfl
  · rw [formatFields_other hop] at h
    cases h
    rfl

theorem textOf_eq_error {r : Except DecodeError Formatted} {e : DecodeError} (h : textOf r = .error e) :
    r = .error e := by
  cases r with
  | ok f => cases h
  | error e' => cases h; rfl

theorem formatInstruction_eq_error {c : Config} {word : Word} {e : DecodeError}
    (h : formatInstruction c word = .error e) : e = .invalidInstruction :=
  formatFields_eq_error (textOf_eq_error h)

theorem resultOf_eq_error {i : Instr} {e : DecodeError} (h : resultOf i = .error e) : e = .invalidInstruction := by
  cases i <;> exact formatFields_eq_error (textOf_eq_error h)

/-- A failure of added lines is the chunk's own or one of the later chunks' (`60_exceptions.md` R186). -/
theorem addLine_eq_error {c : Config} {r : Except DecodeError Text} {later : Except StreamError Text} {e : StreamError}
    (h : addLine c r later = .error e) : (∃ e', r = .error e' ∧ e = .decode e') ∨ later = .error e := by
  cases r with
  | error e' => exact .inl ⟨e', rfl, (Except.error.inj h).symm⟩
  | ok text =>
    cases later with
    | error e' => cases h; exact .inr rfl
    | ok lines => cases h

theorem streamLines_eq_error {c : Config} (bs : List Byte) {e : StreamError} (h : streamLines c bs = .error e) :
    e = .decode .invalidInstruction ∨ e = c.oddPolicy := by
  induction bs using streamLines.induct with
  | case1 => cases h
  | case2 b => exact .inr (Except.error.inj h).symm
  | case3 b0 b1 rest ih =>
    rw [streamLines_pair] at h
    obtain ⟨e', hchunk, rfl⟩ | hlater := addLine_eq_error h
    · exact .inl (congrArg StreamError.decode (formatInstruction_eq_error hchunk))
    · exact ih hlater

/-- The errors of the top-level operation: a chunk's, which is `InvalidInstruction`, or the odd policy's for a byte left
over (`60_exceptions.md` R183). -/
theorem decodeStream_eq_error {c : Config} {bs : List Byte} {e : StreamError} (h : decodeStream c bs = .error e) :
    e = .decode .invalidInstruction ∨ e = c.oddPolicy := by
  cases hs : streamLines c bs with
  | ok lines =>
    rw [decodeStream_of_lines hs] at h
    cases h
  | error e' =>
    rw [decodeStream_of_error hs] at h
    cases h
    exact streamLines_eq_error bs hs

/-- The step counterpart of `decodeStream_eq_error`: a step that fails the run fails it with one of the same errors. -/
theorem step_outcome_failed {s t : State} {e : StreamError} (h : step s = .next t) (hfailed : t.outcome = .failed e) :
    e = .decode .invalidInstruction ∨ e = config.oddPolicy := by
  obtain ⟨hrunning, ⟨-, rfl⟩ | ⟨-, rfl⟩ | ⟨-, hexec⟩⟩ := step_next h
  · cases hfailed
  · exact .inr (RunOutcome.failed.inj hfailed).symm
  · rw [exec_eq_deliver] at hexec
    obtain ⟨-, ⟨text, -, rfl⟩ | ⟨e', hresult, rfl⟩⟩ := deliver_next hexec
    · rw [appendLine_outcome, hrunning] at hfailed
      cases hfailed
    · rw [raise_outcome, resultOf_eq_error hresult] at hfailed
      exact .inl (RunOutcome.failed.inj hfailed).symm

/-- Neither error that a byte sequence or a step can meet is `InvalidRegister`, the odd policy of this hardware being
`MalformedInput` (D6). -/
theorem ne_invalidRegister {e : StreamError} (h : e = .decode .invalidInstruction ∨ e = config.oddPolicy) :
    e ≠ .decode .invalidRegister := by
  rcases h with rfl | rfl <;> decide

/-- Settles O16: the errors of the formatter, the stream function and a step are known and none is `InvalidRegister`; the
lookup alone gives it, outside its domain. -/
theorem invalidRegisterIsUnreachable : Obligations.InvalidRegisterIsUnreachable := by
  refine ⟨fun c word h => ?_, fun bs h => ?_, fun s t hstep h => ?_, fun c w f => regLUT_above c w⟩
  · cases formatInstruction_eq_error h
  · exact ne_invalidRegister (decodeStream_eq_error h) rfl
  · exact ne_invalidRegister (step_outcome_failed hstep h) rfl

/-! ## The order of the checks -/

theorem regLUT_below (c : Config) (w : Bit) {f : Nat} (h : f < 8) : regLUT c w f = .ok (c.regName w ⟨f, h⟩) := dif_pos h

theorem formatSteps_unrecognized (c : Config) (d w : Bit) (mod : BitVec 2) (reg rm : Nat) :
    formatSteps c .unrecognized d w mod reg rm = .error .invalidInstruction := rfl

theorem formatSteps_reg_above (c : Config) (d w : Bit) (mod : BitVec 2) {reg : Nat} (hreg : 7 < reg) (rm : Nat) :
    formatSteps c .moveRegister d w mod reg rm = .error .invalidRegister := by
  simp only [formatSteps, regLUT_above c w hreg]

theorem formatSteps_rm_above (c : Config) (d w : Bit) (mod : BitVec 2) {reg rm : Nat} (hreg : reg < 8) (hrm : 7 < rm) :
    formatSteps c .moveRegister d w mod reg rm = .error .invalidRegister := by
  simp only [formatSteps, regLUT_below c w hreg, regLUT_above c w hrm]

/-- With the opcode recognised and both indices in the table's domain, the MOD check decides (`44_formatter.md` R143). -/
theorem formatSteps_indices_below (c : Config) (d w : Bit) (mod : BitVec 2) {reg rm : Nat} (hreg : reg < 8)
    (hrm : rm < 8) :
    formatSteps c .moveRegister d w mod reg rm =
      checkModAndCompose c .moveRegister d mod (c.regName w ⟨reg, hreg⟩) (c.regName w ⟨rm, hrm⟩) := by
  simp only [formatSteps, regLUT_below c w hreg, regLUT_below c w hrm]

/-- Settles O17: one check failing after the other, in the order in which the formatter makes them. -/
theorem checksAreMadeInOrder : Obligations.ChecksAreMadeInOrder := by
  refine ⟨fun _ _ _ => formatInstruction_eq_error, fun c op d w mod reg rm => ?_⟩
  cases op with
  | unrecognized =>
    rw [if_pos rfl]
    exact formatSteps_unrecognized c d w mod reg rm
  | moveRegister =>
    rw [if_neg Opcode.noConfusion]
    split_ifs with hreg hrm hmod
    · exact formatSteps_reg_above c d w mod hreg rm
    · exact formatSteps_rm_above c d w mod (by omega) hrm
    · rw [formatSteps_indices_below c d w mod (by omega) (by omega)]
      exact checkModAndCompose_bad hmod ..
    · rw [formatSteps_indices_below c d w mod (by omega) (by omega), not_not.1 hmod]
      exact ⟨_, checkModAndCompose_ok ..⟩

end Sys2Proof.Machine
end

section
/-!
Proofs of the family `other`, the encoding: the six fields tile the word, the instruction of a word is a
function of those fields, and encoding undoes it.
-/

namespace Sys2Proof.Machine

/-! ## The fields tile the word -/

theorem bitOf_fromBool (v : Bool) : bitOf (Bit.fromBool v) = BitVec.ofBool v := by cases v <;> rfl

/-- A one-bit slice of the word is the bit it starts at. -/
theorem slice_one (word : Word) (low : Nat) : word.extractLsb' low 1 = BitVec.ofBool (word.getLsbD low) := by
  ext i hi
  obtain rfl : i = 0 := by omega
  simp

theorem bitOf_fieldD (word : Word) : bitOf (fieldD word) = word.extractLsb' 9 1 := by
  rw [fieldD_bit, bitOf_fromBool, slice_one]

theorem bitOf_fieldW (word : Word) : bitOf (fieldW word) = word.extractLsb' 8 1 := by
  rw [fieldW_bit, bitOf_fromBool, slice_one]

/-- The word is recovered from its fields: each bit of the word stands in the slice of exactly one of them. -/
theorem packFields_of_fields (word : Word) :
    packFields (opcodeField word) (fieldD word) (fieldW word) (fieldMod word) (fieldReg word) (fieldRm word) =
      word := by
  rw [packFields, opcodeField_slice, bitOf_fieldD, bitOf_fieldW, fieldMod_slice, fieldReg_slice, fieldRm_slice]
  ext i hi
  interval_cases i <;> simp [BitVec.getLsbD_eq_getElem]

@[simp] theorem fieldD_packFields (opcode : BitVec 6) (d w : Bit) (mod : BitVec 2) (reg rm : BitVec 3) :
    fieldD (packFields opcode d w mod reg rm) = d := by
  rw [fieldD_bit]
  cases d <;> simp [packFields, bitOf, Bit.fromBool]

@[simp] theorem fieldW_packFields (opcode : BitVec 6) (d w : Bit) (mod : BitVec 2) (reg rm : BitVec 3) :
    fieldW (packFields opcode d w mod reg rm) = w := by
  rw [fieldW_bit]
  cases w <;> simp [packFields, bitOf, Bit.fromBool]

@[simp] theorem fieldReg_packFields (opcode : BitVec 6) (d w : Bit) (mod : BitVec 2) (reg rm : BitVec 3) :
    fieldReg (packFields opcode d w mod reg rm) = reg := by
  ext i hi
  rw [fieldReg_slice]
  interval_cases i <;> simp [packFields]

@[simp] theorem fieldRm_packFields (opcode : BitVec 6) (d w : Bit) (mod : BitVec 2) (reg rm : BitVec 3) :
    fieldRm (packFields opcode d w mod reg rm) = rm := by
  ext i hi
  rw [fieldRm_slice]
  interval_cases i <;> simp [packFields]

/-- Settles O3: the fields are slices that tile the word, and each accessor reads back what was packed. -/
theorem fieldsTileTheWord : Obligations.FieldsTileTheWord :=
  ⟨packFields_of_fields, fun _ _ _ _ _ _ => ⟨opcodeField_packFields .., fieldD_packFields .., fieldW_packFields ..,
    fieldMod_packFields .., fieldReg_packFields .., fieldRm_packFields ..⟩⟩

/-- A slice at a field's place is the field's value by widths alone (`30_encoding.md` R50). -/
theorem toNat_slice (f : Field) (word : Word) :
    (word.extractLsb' (fieldLow config f) (fieldWidth config f)).toNat = fieldValue config f word.toNat := by
  rw [BitVec.extractLsb'_toNat, Nat.shiftRight_eq_div_pow, fieldValue]

/-- Settles O49: every accessor is the slice at its field's place. -/
theorem fieldsStandWhereTheWidthsSay : Obligations.FieldsStandWhereTheWidthsSay := by
  refine ⟨by decide, fun word => ?_⟩
  rw [opcodeField_slice, bitOf_fieldD, bitOf_fieldW, fieldMod_slice, fieldReg_slice, fieldRm_slice]
  exact ⟨toNat_slice .opcode word, toNat_slice .d word, toNat_slice .w word, toNat_slice .mod word,
    toNat_slice .reg word, toNat_slice .rm word⟩

/-! ## The instruction of a word, by its fields -/

/-- The instruction that six fields stand for: the rows of `30_encoding.md` R55 and R56 in their order. -/
def instrOfFields (opcode : BitVec 6) (d w : Bit) (mod : BitVec 2) (reg rm : BitVec 3) : Instr :=
  if opcode ≠ 0b100010#6 then .illegalOpcode opcode d w mod reg rm
  else if mod = 0b11#2 then .mov d w reg rm
  else if mod = 0b00#2 then .illegalMod00 d w reg rm
  else if mod = 0b01#2 then .illegalMod01 d w reg rm
  else .illegalMod10 d w reg rm

theorem decodeWord_eq_instrOfFields (word : Word) :
    decodeWord word =
      instrOfFields (opcodeField word) (fieldD word) (fieldW word) (fieldMod word) (fieldReg word) (fieldRm word) := by
  rw [decodeWord, rowOf_eq, instrOfFields]
  split_ifs <;> rfl

/-- A property of the instruction of six fields, row by row. -/
theorem instrOfFields_cases {P : BitVec 6 → BitVec 2 → Instr → Prop} (d w : Bit) (reg rm : BitVec 3)
    (hother : ∀ opcode mod, opcode ≠ 0b100010#6 → P opcode mod (.illegalOpcode opcode d w mod reg rm))
    (hmov : P 0b100010#6 0b11#2 (.mov d w reg rm)) (h00 : P 0b100010#6 0b00#2 (.illegalMod00 d w reg rm))
    (h01 : P 0b100010#6 0b01#2 (.illegalMod01 d w reg rm)) (h10 : P 0b100010#6 0b10#2 (.illegalMod10 d w reg rm))
    (opcode : BitVec 6) (mod : BitVec 2) : P opcode mod (instrOfFields opcode d w mod reg rm) := by
  by_cases hop : opcode = 0b100010#6
  · subst hop
    have hmods : ∀ m : BitVec 2, m = 0b11#2 ∨ m = 0b00#2 ∨ m = 0b01#2 ∨ m = 0b10#2 := by decide
    rcases hmods mod with rfl | rfl | rfl | rfl
    · exact hmov
    · exact h00
    · exact h01
    · exact h10
  · rw [instrOfFields, if_pos hop]
    exact hother opcode mod hop

theorem instrOfFields_wf (opcode : BitVec 6) (d w : Bit) (mod : BitVec 2) (reg rm : BitVec 3) :
    (instrOfFields opcode d w mod reg rm).wf = true :=
  instrOfFields_cases (P := fun _ _ i => i.wf = true) d w reg rm (fun _ _ hop => decide_eq_true hop) rfl rfl rfl rfl
    opcode mod

theorem encodeWord_instrOfFields (opcode : BitVec 6) (d w : Bit) (mod : BitVec 2) (reg rm : BitVec 3) :
    encodeWord (instrOfFields opcode d w mod reg rm) = packFields opcode d w mod reg rm :=
  instrOfFields_cases (P := fun o m i => encodeWord i = packFields o d w m reg rm) d w reg rm (fun _ _ _ => rfl) rfl rfl
    rfl rfl opcode mod

theorem decodeWord_packFields (opcode : BitVec 6) (d w : Bit) (mod : BitVec 2) (reg rm : BitVec 3) :
    decodeWord (packFields opcode d w mod reg rm) = instrOfFields opcode d w mod reg rm := by
  rw [decodeWord_eq_instrOfFields, opcodeField_packFields, fieldD_packFields, fieldW_packFields, fieldMod_packFields,
    fieldReg_packFields, fieldRm_packFields]

/-! ## The round trips -/

theorem decodeWord_wf (word : Word) : (decodeWord word).wf = true := by
  rw [decodeWord_eq_instrOfFields]
  exact instrOfFields_wf ..

theorem encodeWord_decodeWord (word : Word) : encodeWord (decodeWord word) = word := by
  rw [decodeWord_eq_instrOfFields, encodeWord_instrOfFields, packFields_of_fields]

/-- The word of a well-formed instruction decodes to it, each row's fixed fields being that row's own. -/
theorem decodeWord_encodeWord {i : Instr} (h : i.wf = true) : decodeWord (encodeWord i) = i := by
  cases i with
  | mov d w reg rm => exact decodeWord_packFields ..
  | illegalMod00 d w reg rm => exact decodeWord_packFields ..
  | illegalMod01 d w reg rm => exact decodeWord_packFields ..
  | illegalMod10 d w reg rm => exact decodeWord_packFields ..
  | illegalOpcode opcode d w mod reg rm =>
    exact (decodeWord_packFields ..).trans (if_pos (of_decide_eq_true h))

theorem firstByte_slice (word : Word) : firstByte word = word.extractLsb' 8 8 := rfl

theorem secondByte_slice (word : Word) : secondByte word = word.extractLsb' 0 8 := by
  rw [secondByte_eq, lowByte, BitVec.setWidth_eq_extractLsb' (by decide)]

theorem wordOfBytes_first_second (word : Word) : wordOfBytes (firstByte word) (secondByte word) = word := by
  rw [firstByte_slice, secondByte_slice, wordOfBytes_halves]

/-- Settles O4: the two bytes of an encoding form its word again, and that word decodes to the instruction. -/
theorem decodeOfEncodeGivesInstr : Obligations.DecodeOfEncodeGivesInstr := by
  intro i rest hwf
  calc decode (encode i ++ rest)
      = .ok (decodeWord (wordOfBytes (firstByte (encodeWord i)) (secondByte (encodeWord i))), rest) := rfl
    _ = .ok (decodeWord (encodeWord i), rest) := by rw [wordOfBytes_first_second]
    _ = .ok (i, rest) := by rw [decodeWord_encodeWord hwf]

/-- Settles O5: the instruction of a word encodes to that word, whose halves are the two bytes. -/
theorem encodeOfDecodeGivesBytes : Obligations.EncodeOfDecodeGivesBytes := by
  refine fun b0 b1 => ⟨decodeWord_wf _, ?_⟩
  rw [encode, encodeWord_decodeWord, firstByte_slice, secondByte_slice, wordOfBytes_high, wordOfBytes_low]

/-- Settles O6: six words written out in full, evaluated. -/
theorem writtenOutWordsDecode : Obligations.WrittenOutWordsDecode :=
  ⟨by decide, by decide, by decide, by decide, by decide, by decide⟩

end Sys2Proof.Machine
end

section
/-!
Proofs of the family `other`, CORE: a word of the one row that decodes gives the text of its two operands, which D
orders and W and the register table name.
-/

namespace Sys2Proof.Machine

/-! ## The result of a word that decodes -/

/-- What CORE gives for a pair of operands, destination first (`44_formatter.md` R144). -/
def formattedOperands (c : Config) (operands : Register × Register) : Formatted where
  dst := operands.1
  src := operands.2
  text := composeText c .moveRegister operands.1 operands.2

/-- The destination and the source that the fields of a register-direct word name (R127). -/
def operandsOf (c : Config) (d w : Bit) (reg rm : BitVec 3) : Register × Register :=
  selectOperands d (c.regName w reg.toFin) (c.regName w rm.toFin)

theorem formatFields_direct (c : Config) (d w : Bit) (reg rm : BitVec 3) :
    formatFields c c.opcodeMov d w c.modRegDirect reg rm = .ok (formattedOperands c (operandsOf c d w reg rm)) :=
  (formatFields_mov c d w c.modRegDirect reg rm).trans (checkModAndCompose_ok ..)

theorem formatFields_otherMod {c : Config} {mod : BitVec 2} (hmod : mod ≠ c.modRegDirect) (d w : Bit)
    (reg rm : BitVec 3) : formatFields c c.opcodeMov d w mod reg rm = .error .invalidInstruction :=
  (formatFields_mov c d w mod reg rm).trans (checkModAndCompose_bad hmod ..)

theorem formatWord_direct {c : Config} {word : Word} (hop : opcodeField word = c.opcodeMov)
    (hmod : fieldMod word = c.modRegDirect) :
    formatWord c word =
      .ok (formattedOperands c (operandsOf c (fieldD word) (fieldW word) (fieldReg word) (fieldRm word))) := by
  rw [formatWord, hop, hmod, formatFields_direct]

/-- The converse of `formatWord_direct`. -/
theorem formatWord_eq_ok {c : Config} {word : Word} {f : Formatted} (h : formatWord c word = .ok f) :
    opcodeField word = c.opcodeMov ∧ fieldMod word = c.modRegDirect ∧
      f = formattedOperands c (operandsOf c (fieldD word) (fieldW word) (fieldReg word) (fieldRm word)) := by
  obtain ⟨hop, hmod, -, -⟩ := formatFields_eq_ok h
  rw [formatWord_direct hop hmod] at h
  exact ⟨hop, hmod, (Except.ok.inj h).symm⟩

/-! ## The words that decode -/

/-- The mask and pattern of `30_encoding.md` R55 test the opcode field and MOD. -/
theorem movMask_iff (word : Word) :
    word &&& 0xFCC0#16 = 0x88C0#16 ↔ opcodeField word = 0b100010#6 ∧ fieldMod word = 0b11#2 :=
  masked_eq_iff word 0b11#2

/-- Settles O14: the mask passes exactly the words that the opcode check and the MOD check pass. -/
theorem decodableWordsAreTheMaskedOnes : Obligations.DecodableWordsAreTheMaskedOnes := by
  intro regName word
  split_ifs with hmask
  · obtain ⟨hop, hmod⟩ := (movMask_iff word).1 hmask
    exact ⟨_, formatInstruction_of_formatWord (formatWord_direct hop hmod)⟩
  · by_cases hop : opcodeField word = 0b100010#6
    · exact otherModIsInvalidInstruction regName word hop fun hmod => hmask ((movMask_iff word).2 ⟨hop, hmod⟩)
    · exact otherOpcodeIsInvalidInstruction regName word hop

/-! ## Flipping the direction -/

@[simp] theorem bitNot_bit0 : Bit.not .bit0 = .bit1 := rfl
@[simp] theorem bitNot_bit1 : Bit.not .bit1 = .bit0 := rfl

theorem selectOperands_not (d : Bit) (a b : Register) :
    selectOperands (Bit.not d) a b = (selectOperands d a b).swap := by
  cases d <;> rfl

theorem operandsOf_not (c : Config) (d w : Bit) (reg rm : BitVec 3) :
    operandsOf c (Bit.not d) w reg rm = (operandsOf c d w reg rm).swap :=
  selectOperands_not ..

theorem fieldD_flip (word : Word) : fieldD (word ^^^ 0x0200#16) = Bit.not (fieldD word) := by
  rw [fieldD_bit, fieldD_bit, BitVec.getLsbD_xor]
  cases word.getLsbD 9 <;> rfl

theorem fieldW_flip (word : Word) : fieldW (word ^^^ 0x0200#16) = fieldW word := by
  rw [fieldW_bit, fieldW_bit, BitVec.getLsbD_xor]
  cases word.getLsbD 8 <;> rfl

/-- A slice that bit 9 is no part of does not see it flipped. -/
theorem slice_flip (word : Word) {low width : Nat} (h : (0x0200#16).extractLsb' low width = 0#width) :
    (word ^^^ 0x0200#16).extractLsb' low width = word.extractLsb' low width := by
  rw [BitVec.extractLsb'_xor, h, BitVec.xor_zero]

theorem opcodeField_flip (word : Word) : opcodeField (word ^^^ 0x0200#16) = opcodeField word := by
  rw [opcodeField_slice, opcodeField_slice, slice_flip word rfl]

theorem fieldMod_flip (word : Word) : fieldMod (word ^^^ 0x0200#16) = fieldMod word := by
  rw [fieldMod_slice, fieldMod_slice, slice_flip word rfl]

theorem fieldReg_flip (word : Word) : fieldReg (word ^^^ 0x0200#16) = fieldReg word := by
  rw [fieldReg_slice, fieldReg_slice, slice_flip word rfl]

theorem fieldRm_flip (word : Word) : fieldRm (word ^^^ 0x0200#16) = fieldRm word := by
  rw [fieldRm_slice, fieldRm_slice, slice_flip word rfl]

/-- A word that decodes decodes with bit 9 flipped too, to the same operands exchanged. -/
theorem formatWord_flip {c : Config} {word : Word} {f : Formatted} (h : formatWord c word = .ok f) :
    formatWord c (word ^^^ 0x0200#16) = .ok (formattedOperands c (f.src, f.dst)) := by
  obtain ⟨hop, hmod, rfl⟩ := formatWord_eq_ok h
  rw [formatWord_direct ((opcodeField_flip word).trans hop) ((fieldMod_flip word).trans hmod), fieldD_flip, fieldW_flip,
    fieldReg_flip, fieldRm_flip, operandsOf_not]
  rfl

/-- Settles O18: bit 9 is D and part of no other field, and D alone orders the operands. -/
theorem flippingDirectionSwapsOperands : Obligations.FlippingDirectionSwapsOperands := by
  intro regName word f h
  obtain ⟨-, htext, -, -⟩ := okTextHasTheGrammar regName word f h
  rw [← composeText_mov regName f.src f.dst]
  exact ⟨htext, formatWord_flip h⟩

/-! ## The register table -/

/-- W chooses between byte-width and word-width names (`42_register_lut.md` R104). -/
theorem registerWidth_regName (w : Bit) (i : Fin 8) : registerWidth (config.regName w i) = w := by
  cases w
  · revert i; decide
  · revert i; decide

theorem regName_index_injective (w : Bit) (i i' : Fin 8) (h : config.regName w i = config.regName w i') : i = i' := by
  cases w
  · revert i i'; decide
  · revert i i'; decide

theorem regName_injective {w w' : Bit} {i i' : Fin 8} (h : config.regName w i = config.regName w' i') :
    w = w' ∧ i = i' := by
  obtain rfl : w = w' := by rw [← registerWidth_regName w i, h, registerWidth_regName]
  exact ⟨rfl, regName_index_injective w i i' h⟩

theorem exists_regName (r : Register) : ∃ i, config.regName (registerWidth r) i = r := by
  cases r <;> decide

/-- Settles O9: the entries are the table's; the width of a name gives its W, and within a width the eight names
differ. -/
theorem registerTableIsOneToOne : Obligations.RegisterTableIsOneToOne :=
  ⟨⟨rfl, rfl, rfl⟩, by decide, fun _ _ _ _ => regName_injective, fun r => ⟨registerWidth r, exists_regName r⟩,
    registerWidth_regName⟩

/-! ## The two encodings of a text -/

/-- A text tells its operands: they stand after the mnemonic and the space, two letters each. -/
theorem composeText_injective {c : Config} {p q : Register × Register}
    (h : composeText c .moveRegister p.1 p.2 = composeText c .moveRegister q.1 q.2) : p = q := by
  obtain ⟨-, hnames⟩ := List.cons.inj (List.append_cancel_left h)
  obtain ⟨hdst, hrest⟩ := List.append_inj hnames (by rw [renderRegister_length, renderRegister_length])
  exact Prod.ext (renderRegister_injective hdst) (renderRegister_injective (List.append_cancel_left hrest))

/-- The same selection comes of the same setting, or of the other setting on the names exchanged. -/
theorem selectOperands_eq_iff (d d' : Bit) (a b a' b' : Register) :
    selectOperands d a b = selectOperands d' a' b' ↔
      (d' = d ∧ a' = a ∧ b' = b) ∨ (d' = Bit.not d ∧ a' = b ∧ b' = a) := by
  cases d <;> cases d' <;> simp [eq_comm, and_comm]

/-- The names of two lookups are equal only for the same W and index (R104). -/
theorem regName_eq_iff (w w' : Bit) (f f' : BitVec 3) :
    config.regName w' f'.toFin = config.regName w f.toFin ↔ w' = w ∧ f' = f := by
  constructor
  · intro h
    obtain ⟨hw, hf⟩ := regName_injective h
    exact ⟨hw, BitVec.eq_of_toFin_eq hf⟩
  · rintro ⟨rfl, rfl⟩
    rfl

theorem operandsOf_eq_iff (d d' w w' : Bit) (reg rm reg' rm' : BitVec 3) :
    operandsOf config d w reg rm = operandsOf config d' w' reg' rm' ↔
      (d' = d ∧ w' = w ∧ reg' = reg ∧ rm' = rm) ∨ (d' = Bit.not d ∧ w' = w ∧ reg' = rm ∧ rm' = reg) := by
  rw [operandsOf, operandsOf, selectOperands_eq_iff]
  simp only [regName_eq_iff]
  tauto

/-- A word is packed from given fields exactly when those are its fields. -/
theorem eq_packFields_iff (word : Word) (opcode : BitVec 6) (d w : Bit) (mod : BitVec 2) (reg rm : BitVec 3) :
    word = packFields opcode d w mod reg rm ↔
      opcodeField word = opcode ∧ fieldD word = d ∧ fieldW word = w ∧ fieldMod word = mod ∧ fieldReg word = reg ∧
        fieldRm word = rm := by
  constructor
  · rintro rfl
    simp
  · rintro ⟨rfl, rfl, rfl, rfl, rfl, rfl⟩
    exact (packFields_of_fields word).symm

/-- Two words that decode have the same text exactly when they name the same operands. -/
theorem formatInstruction_eq_iff {c : Config} {word word' : Word} {p q : Register × Register}
    (h : formatWord c word = .ok (formattedOperands c p)) (h' : formatWord c word' = .ok (formattedOperands c q)) :
    formatInstruction c word = formatInstruction c word' ↔ p = q := by
  rw [formatInstruction_of_formatWord h, formatInstruction_of_formatWord h', Except.ok.injEq]
  exact ⟨composeText_injective, fun hpq => by rw [hpq]⟩

/-- Settles O19: the text tells the operands, the operands tell W and the two indices up to the direction, and the
fields tell the word. -/
theorem eachTextHasTwoEncodings : Obligations.EachTextHasTwoEncodings := by
  intro word word' hmask hmask'
  obtain ⟨hop, hmod⟩ := (movMask_iff word).1 hmask
  obtain ⟨hop', hmod'⟩ := (movMask_iff word').1 hmask'
  have hself : word' = word ↔ word' =
      packFields 0b100010#6 (fieldD word) (fieldW word) 0b11#2 (fieldReg word) (fieldRm word) := by
    rw [← hop, ← hmod, packFields_of_fields]
  rw [formatInstruction_eq_iff (formatWord_direct hop hmod) (formatWord_direct hop' hmod'), operandsOf_eq_iff, hself,
    eq_packFields_iff, eq_packFields_iff, and_iff_right hop', and_iff_right hop', hmod']
  tauto

/-! ## The ports -/

theorem wordOfBytes_toNat (b0 b1 : Byte) : (wordOfBytes b0 b1).toNat = 256 * b0.toNat + b1.toNat := by
  rw [wordOfBytes_eq_append, BitVec.toNat_append, ← Nat.shiftLeft_add_eq_or_of_lt b1.isLt, Nat.shiftLeft_eq,
    Nat.mul_comm]

/-- Settles O21: the always-valid ports are the accessors' values by definition, the others follow the arm of CORE's
result. -/
theorem portsCarryValuesOnlyWhenOk : Obligations.PortsCarryValuesOnlyWhenOk := by
  refine ⟨wordOfBytes_toNat, ?_⟩
  rintro c b0 b1 word rfl
  refine ⟨⟨rfl, rfl, rfl, rfl, rfl, rfl, rfl⟩, ?_⟩
  cases hresult : formatWord c (wordOfBytesIn c.wordByteOrder b0 b1) with
  | ok f => simp [ports, portsOfWord, hresult, coreDecode, formatInstruction_of_formatWord hresult]
  | error e =>
    cases e <;>
      simp [ports, portsOfWord, hresult, statusOf, coreDecode, formatInstruction_of_formatWord_error hresult]

/-! ## The Bit type -/

/-- Settles O22: the truth table has four lines. -/
theorem bitOperatorsFollowTheTable : Obligations.BitOperatorsFollowTheTable := by
  intro a b
  cases a <;> cases b <;> decide

/-- Settles O23: there are two Bits and two booleans. -/
theorem bitConversionsAndRendering : Obligations.BitConversionsAndRendering := by
  refine ⟨rfl, rfl, rfl, rfl, by decide, fun a => ?_, by decide, by decide⟩
  cases a <;> rfl

/-! ## The parameters -/

theorem textEncoding_toNat {ch : Char} (h : ch.toNat < 128) : (config.textEncoding ch).toNat = ch.toNat := by
  rw [config_textEncoding, BitVec.toNat_ofNat, Nat.mod_eq_of_lt (by omega)]

/-- Settles O48: the record is written out; only the encoding's values need an argument. -/
theorem parametersHaveTheirValues : Obligations.ParametersHaveTheirValues :=
  ⟨⟨rfl, rfl, rfl, rfl, rfl, rfl, rfl, rfl, fun _ _ => rfl⟩, by decide, fun _ => textEncoding_toNat,
    ⟨rfl, lengthAdmitted_config⟩, by decide⟩

end Sys2Proof.Machine
end

section
/-!
Proofs of the family `other`, the stream function: what it gives for a sequence with a beginning that decodes, and what
its listings look like.
-/

namespace Sys2Proof.Machine

/-! ## A beginning that decodes -/

/-- Lines that were added stay in front of whatever is put before the later ones. -/
theorem addLine_map (c : Config) (text lines : Text) (later : Except StreamError Text) :
    addLine c (.ok text) (later.map (lines ++ ·)) = later.map (listingLine c text ++ lines ++ ·) := by
  cases later with
  | error e => rfl
  | ok all => exact congrArg Except.ok (List.append_assoc ..).symm

/-- After a beginning that decodes, the rest decides: its error, or its lines after those of the beginning
(`60_exceptions.md` R186). -/
theorem streamLines_append {c : Config} (before : List Byte) {lines : Text} (h : streamLines c before = .ok lines)
    (rest : List Byte) : streamLines c (before ++ rest) = (streamLines c rest).map (lines ++ ·) := by
  induction before using streamLines.induct generalizing lines with
  | case1 =>
    cases h
    rw [List.nil_append]
    cases streamLines c rest <;> rfl
  | case2 b => cases h
  | case3 b0 b1 before ih =>
    rw [streamLines_pair] at h
    obtain ⟨text, later, htext, hlater, rfl⟩ := addLine_eq_ok h
    rw [List.cons_append, List.cons_append, streamLines_pair, htext, ih hlater, addLine_map]

theorem decodeStream_eq_map (c : Config) (bs : List Byte) :
    decodeStream c bs = (streamLines c bs).map (listingStart c ++ ·) := by
  cases hs : streamLines c bs with
  | ok lines => exact decodeStream_of_lines hs
  | error e => exact decodeStream_of_error hs

theorem decodeStream_append {c : Config} {before : List Byte} {listing : Text}
    (h : decodeStream c before = .ok listing) (rest : List Byte) :
    decodeStream c (before ++ rest) = (streamLines c rest).map (listing ++ ·) := by
  obtain ⟨lines, hlines, rfl⟩ := decodeStream_eq_ok h
  rw [decodeStream_eq_map, streamLines_append before hlines]
  cases streamLines c rest with
  | error e => rfl
  | ok later => exact congrArg Except.ok (List.append_assoc ..).symm

theorem decodeStream_append_ok {c : Config} {before : List Byte} {listing text : Text} {b0 b1 : Byte}
    (h : decodeStream c before = .ok listing) (htext : coreDecode c b0 b1 = .ok text) :
    decodeStream c (before ++ [b0, b1]) = .ok (listing ++ listingLine c text) := by
  rw [decodeStream_append h, streamLines_pair, htext, streamLines_nil, addLine_ok_ok, List.append_nil]
  rfl

theorem decodeStream_append_error {c : Config} {before : List Byte} {listing : Text} {b0 b1 : Byte} {e : DecodeError}
    (h : decodeStream c before = .ok listing) (herror : coreDecode c b0 b1 = .error e) (rest : List Byte) :
    decodeStream c (before ++ b0 :: b1 :: rest) = .error (.decode e) := by
  rw [decodeStream_append h, streamLines_pair, herror]
  rfl

theorem decodeStream_append_dangling {c : Config} {before : List Byte} {listing : Text}
    (h : decodeStream c before = .ok listing) (b : Byte) :
    decodeStream c (before ++ [b]) = .error c.oddPolicy := by
  rw [decodeStream_append h, streamLines_single]
  rfl

/-- Settles O44: after a beginning that decodes the rest decides, and the rest fails at its first position. -/
theorem firstFailingPositionDecides : Obligations.FirstFailingPositionDecides :=
  fun _ _ _ _ h => ⟨fun _ _ _ rest herror => decodeStream_append_error h herror rest, decodeStream_append_dangling h⟩

/-! ## The lines of a sequence -/

/-- One line for each chunk in order (`45_sequencer.md` R163). -/
theorem streamLines_of_chunks {c : Config} (chunks : List (Byte × Byte)) (texts : List Text)
    (h : chunks.map (fun p => coreDecode c p.1 p.2) = texts.map Except.ok) :
    streamLines c (chunks.flatMap fun p => [p.1, p.2]) = .ok (texts.flatMap (listingLine c)) := by
  induction chunks generalizing texts with
  | nil =>
    obtain rfl : texts = [] := List.map_eq_nil_iff.1 h.symm
    rfl
  | cons p chunks ih =>
    obtain ⟨text, texts, rfl, htext, hrest⟩ := List.map_eq_cons_iff.1 h.symm
    calc streamLines c ((p :: chunks).flatMap fun p => [p.1, p.2])
        = addLine c (coreDecode c p.1 p.2) (streamLines c (chunks.flatMap fun p => [p.1, p.2])) := rfl
      _ = addLine c (.ok text) (.ok (texts.flatMap (listingLine c))) := by
        rw [show coreDecode c p.1 p.2 = .ok text from htext.symm, ih texts hrest.symm]
      _ = .ok ((text :: texts).flatMap (listingLine c)) := by rw [addLine_ok_ok, List.flatMap_cons]

/-- Settles O42: the start of the listing and the chunks' lines, each as the layout writes it. -/
theorem listingHasOneLinePerChunk : Obligations.ListingHasOneLinePerChunk := by
  refine ⟨rfl, fun c chunks texts h => ?_⟩
  rw [decodeStream_of_lines (streamLines_of_chunks chunks texts h)]
  unfold listingStart listingLine
  cases c.listingLayout <;> rfl

/-! ## The length of a listing -/

theorem count_lineBreak_renderRegister (r : Register) : (renderRegister r).count '\n' = 0 := by cases r <;> decide

theorem composeText_length (dst src : Register) : (composeText config .moveRegister dst src).length = 10 := by
  simp [composeText, renderOpcode, config]

theorem count_lineBreak_composeText (dst src : Register) :
    (composeText config .moveRegister dst src).count '\n' = 0 := by
  simp [composeText, renderOpcode, config, count_lineBreak_renderRegister]

/-- A chunk's line is the line break and a text of ten characters with none in it. -/
theorem listingLine_of_coreDecode {b0 b1 : Byte} {text : Text} (h : coreDecode config b0 b1 = .ok text) :
    (listingLine config text).length = 11 ∧ (listingLine config text).count '\n' = 1 := by
  obtain ⟨dst, src, rfl⟩ := coreDecode_eq_ok h
  simp [composeText_length, count_lineBreak_composeText]

theorem streamLines_length (bs : List Byte) {lines : Text} (h : streamLines config bs = .ok lines) :
    lines.length = 11 * (bs.length / 2) ∧ lines.count '\n' = bs.length / 2 := by
  induction bs using streamLines.induct generalizing lines with
  | case1 => cases h; decide
  | case2 b => cases h
  | case3 b0 b1 rest ih =>
    rw [streamLines_pair] at h
    obtain ⟨text, later, htext, hlater, rfl⟩ := addLine_eq_ok h
    obtain ⟨hlength, hbreaks⟩ := listingLine_of_coreDecode htext
    obtain ⟨ihlength, ihbreaks⟩ := ih hlater
    have hhalf : (b0 :: b1 :: rest).length / 2 = rest.length / 2 + 1 := Nat.add_div_right rest.length Nat.two_pos
    rw [List.length_append, List.count_append]
    omega

/-- Settles O43: the header's seven characters hold no line break, and each chunk adds eleven with one. -/
theorem listingLengthIsFixed : Obligations.ListingLengthIsFixed := by
  intro bs listing h
  obtain ⟨lines, hlines, rfl⟩ := decodeStream_eq_ok h
  obtain ⟨hlength, hbreaks⟩ := streamLines_length bs hlines
  have hheader : config.header.length = 7 ∧ config.header.count '\n' = 0 := by decide
  rw [listingStart_config, List.length_append, List.count_append]
  omega

/-! ## The parity of the length -/

theorem streamLines_ok_even {c : Config} (bs : List Byte) {lines : Text} (h : streamLines c bs = .ok lines) :
    bs.length % 2 = 0 := by
  induction bs using streamLines.induct generalizing lines with
  | case1 => rfl
  | case2 b => cases h
  | case3 b0 b1 rest ih =>
    obtain ⟨-, later, -, hlater, -⟩ := addLine_eq_ok h
    exact (Nat.add_mod_right ..).trans (ih hlater)

/-- With no byte left over, a failure is a chunk's. -/
theorem streamLines_error_of_even {c : Config} (bs : List Byte) {e : StreamError} (heven : bs.length % 2 = 0)
    (h : streamLines c bs = .error e) : ∃ e', e = .decode e' := by
  induction bs using streamLines.induct with
  | case1 => cases h
  | case2 b => cases heven
  | case3 b0 b1 rest ih =>
    obtain ⟨e', -, rfl⟩ | hlater := addLine_eq_error h
    · exact ⟨e', rfl⟩
    · exact ih ((Nat.add_mod_right ..).symm.trans heven) hlater

/-- Settles O45: lines only come of whole chunks, and without a byte left over the odd policy is never asked. -/
theorem oddLengthGivesNoListing : Obligations.OddLengthGivesNoListing := by
  refine ⟨fun bs listing hodd h => ?_, fun bs heven h => ?_⟩
  · obtain ⟨lines, hlines, -⟩ := decodeStream_eq_ok h
    have heven := streamLines_ok_even bs hlines
    omega
  · cases hs : streamLines config bs with
    | ok lines =>
      rw [decodeStream_of_lines hs] at h
      cases h
    | error e =>
      obtain ⟨e', rfl⟩ := streamLines_error_of_even bs heven hs
      rw [decodeStream_of_error hs] at h
      cases h

/-! ## The characters of a listing -/

theorem outputAlphabet_ascii : ∀ ch ∈ outputAlphabet config, ch.toNat < 128 := by
  simp [outputAlphabet, config, Register.all, renderRegister]

theorem decode_textEncoding {ch : Char} (h : ch.toNat < 128) : Char.ofNat (config.textEncoding ch).toNat = ch := by
  rw [textEncoding_toNat h, Char.ofNat_toNat]

theorem decode_encodeText {t : Text} (h : ∀ ch ∈ t, ch.toNat < 128) :
    (encodeText config t).map (fun b => Char.ofNat b.toNat) = t := by
  rw [encodeText, List.map_map]
  exact (List.map_congr_left fun ch hch => decode_textEncoding (h ch hch)).trans (List.map_id t)

/-- Settles O47: every character of a listing is of the output's alphabet, which is ASCII. -/
theorem listingIsAscii : Obligations.ListingIsAscii := by
  intro bs listing h
  have hascii : ∀ ch ∈ listing, ch.toNat < 128 := fun ch hch => outputAlphabet_ascii ch (decodeStream_subset h hch)
  exact ⟨hascii, decode_encodeText hascii⟩

/-! ## The worked examples -/

/-- The listing of the one chunk whose word has these fields, for any register table. -/
theorem decodeStream_mov (regName : Bit → Fin 8 → Register) {b0 b1 : Byte} {d w : Bit} {reg rm : BitVec 3}
    {dst src : Register} (hword : wordOfBytes b0 b1 = packFields 0b100010#6 d w 0b11#2 reg rm)
    (hoperands : operandsOf { config with regName := regName } d w reg rm = (dst, src)) :
    decodeStream { config with regName := regName } [b0, b1] =
      .ok (config.header ++ config.lineBreak ::
        ("mov".toList ++ [' '] ++ renderRegister dst ++ [',', ' '] ++ renderRegister src)) := by
  obtain ⟨hop, hd, hw, hmod, hreg, hrm⟩ := (eq_packFields_iff ..).1 hword
  have hresult := formatWord_direct (c := { config with regName := regName }) hop hmod
  rw [hd, hw, hreg, hrm, hoperands] at hresult
  rw [← composeText_mov regName]
  exact decodeStream_append_ok (before := []) (listing := config.header) rfl (formatInstruction_of_formatWord hresult)

/-- Settles O20: the words' fields are evaluated, and the three fixed entries give the names. -/
theorem workedExamplesHoldForAnyTable : Obligations.WorkedExamplesHoldForAnyTable := by
  intro regName hal hcx hbx
  have hopcode : opcodeField (wordOfBytes 0xFF#8 0xFF#8) ≠ 0b100010#6 := by decide
  refine ⟨?_, ?_, ?_, ?_, rfl⟩
  · exact (decodeStream_mov regName (d := .bit0) (w := .bit1) (reg := 3) (rm := 1) (by decide)
      (Prod.ext hcx hbx)).trans (by decide)
  · exact (decodeStream_mov regName (d := .bit0) (w := .bit0) (reg := 0) (rm := 0) (by decide)
      (Prod.ext hal hal)).trans (by decide)
  · exact (decodeStream_mov regName (d := .bit1) (w := .bit0) (reg := 0) (rm := 0) (by decide)
      (Prod.ext hal hal)).trans (by decide)
  · exact decodeStream_append_error (before := []) (listing := config.header) rfl
      (otherOpcodeIsInvalidInstruction regName _ hopcode) []

end Sys2Proof.Machine
end

section
/-!
Proofs of the family `other`, instructions and steps: what each row's meaning delivers, and a step as the delivery of
CORE's result for the chunk at the position.
-/

namespace Sys2Proof.Machine

/-! ## What each row delivers -/

theorem resultOf_mov (d w : Bit) (reg rm : BitVec 3) :
    resultOf (.mov d w reg rm) = .ok (formattedOperands config (operandsOf config d w reg rm)).text :=
  congrArg textOf (formatFields_direct config d w reg rm)

theorem resultOf_illegalMod00 (d w : Bit) (reg rm : BitVec 3) :
    resultOf (.illegalMod00 d w reg rm) = .error .invalidInstruction :=
  congrArg textOf (formatFields_otherMod (c := config) (by decide) d w reg rm)

theorem resultOf_illegalMod01 (d w : Bit) (reg rm : BitVec 3) :
    resultOf (.illegalMod01 d w reg rm) = .error .invalidInstruction :=
  congrArg textOf (formatFields_otherMod (c := config) (by decide) d w reg rm)

theorem resultOf_illegalMod10 (d w : Bit) (reg rm : BitVec 3) :
    resultOf (.illegalMod10 d w reg rm) = .error .invalidInstruction :=
  congrArg textOf (formatFields_otherMod (c := config) (by decide) d w reg rm)

theorem resultOf_illegalOpcode {opcode : BitVec 6} (h : opcode ≠ 0b100010#6) (d w : Bit) (mod : BitVec 2)
    (reg rm : BitVec 3) : resultOf (.illegalOpcode opcode d w mod reg rm) = .error .invalidInstruction :=
  congrArg textOf (formatFields_other (c := config) h d w mod reg rm)

theorem exec_of_resultOf_error {i : Instr} {s : State} {e : DecodeError} (hr : s.outcome = .running)
    (h : resultOf i = .error e) : exec i s = .next (raise (.decode e) s) := by
  rw [exec_eq_deliver, h, deliver_error hr]

theorem exec_mov {s : State} (hr : s.outcome = .running) (d w : Bit) (reg rm : BitVec 3) :
    exec (.mov d w reg rm) s =
      .next (appendLine (formattedOperands config (operandsOf config d w reg rm)).text s) := by
  rw [exec_eq_deliver, resultOf_mov, deliver_ok hr]

/-- The operands as R127 says them: REG is the destination if D is true, R/M if it is false. -/
theorem operandsOf_eq_ite (c : Config) (d w : Bit) (reg rm : BitVec 3) :
    operandsOf c d w reg rm =
      (c.regName w (if d = .bit1 then reg.toFin else rm.toFin),
        c.regName w (if d = .bit1 then rm.toFin else reg.toFin)) := by
  cases d <;> rfl

/-- Settles O24: `mov` delivers the text of its operands, and a delivered text is appended. -/
theorem movAppendsItsLine : Obligations.MovAppendsItsLine := by
  intro d w reg rm s hr
  rw [exec_mov hr, formattedOperands, operandsOf_eq_ite, composeText_mov config.regName, appendLine, listingLine_config,
    config_bytesPerInstr]
  simp only [List.append_assoc, List.cons_append, List.nil_append]

/-- Settles O25: each illegal row delivers `InvalidInstruction`, and a delivered error is raised. -/
theorem illegalRowsFailTheRun : Obligations.IllegalRowsFailTheRun :=
  ⟨fun d w reg rm _ hr => ⟨exec_of_resultOf_error hr (resultOf_illegalMod00 d w reg rm),
      exec_of_resultOf_error hr (resultOf_illegalMod01 d w reg rm),
      exec_of_resultOf_error hr (resultOf_illegalMod10 d w reg rm)⟩,
    fun _ d w mod reg rm _ hr hop => exec_of_resultOf_error hr (resultOf_illegalOpcode hop d w mod reg rm)⟩

theorem exec_input {i : Instr} {s t : State} (h : exec i s = .next t) : t.input = s.input := by
  obtain ⟨-, ⟨text, rfl⟩ | ⟨e, rfl⟩⟩ := exec_next h
  · exact appendLine_input text s
  · exact raise_input (.decode e) s

theorem exec_mov_frame {d w : Bit} {reg rm : BitVec 3} {s t : State} (h : exec (.mov d w reg rm) s = .next t) :
    t.outcome = s.outcome ∧ s.listing <+: t.listing := by
  obtain ⟨hr, -⟩ := exec_next h
  rw [exec_mov hr] at h
  cases h
  exact ⟨appendLine_outcome .., List.prefix_append ..⟩

/-- An instruction that delivers an error moves neither the position nor the listing. -/
theorem exec_error_frame {i : Instr} {s t : State} {e : DecodeError} (herror : resultOf i = .error e)
    (h : exec i s = .next t) : t.pos = s.pos ∧ t.listing = s.listing := by
  obtain ⟨hr, -⟩ := exec_next h
  rw [exec_of_resultOf_error hr herror] at h
  cases h
  exact ⟨raise_pos .., raise_listing ..⟩

/-- Settles O26: no instruction has the input to change; the rest of the frame goes row by row. -/
theorem instrFrames : Obligations.InstrFrames := by
  intro i s t hwf h
  refine ⟨⟨exec_input h, fun a => by rw [exec_input h]⟩, ?_⟩
  cases i with
  | mov d w reg rm => exact exec_mov_frame h
  | illegalMod00 d w reg rm => exact exec_error_frame (resultOf_illegalMod00 d w reg rm) h
  | illegalMod01 d w reg rm => exact exec_error_frame (resultOf_illegalMod01 d w reg rm) h
  | illegalMod10 d w reg rm => exact exec_error_frame (resultOf_illegalMod10 d w reg rm) h
  | illegalOpcode opcode d w mod reg rm =>
    exact exec_error_frame (resultOf_illegalOpcode (of_decide_eq_true hwf) d w mod reg rm) h

/-! ## A step on a chunk -/

/-- The meaning of a word's row delivers what the formatter gives for the word. -/
theorem resultOf_decodeWord (word : Word) : resultOf (decodeWord word) = formatInstruction config word := by
  rw [decodeWord_eq_instrOfFields]
  exact instrOfFields_cases
    (P := fun opcode mod i => resultOf i =
      textOf (formatFields config opcode (fieldD word) (fieldW word) mod (fieldReg word) (fieldRm word)))
    _ _ _ _ (fun _ _ _ => rfl) rfl rfl rfl rfl _ _

/-- `MemRead(pos, 2)` is defined exactly when two bytes are unread, and gives those two. -/
theorem memRead_two_eq_some {m : Memory} {addr : Nat} {bs : List Byte} (h : m.memRead addr 2 = some bs) :
    addr + 2 ≤ m.len ∧ bs = [cellsGet m.cells addr, cellsGet m.cells (addr + 1)] := by
  by_cases hle : addr + 2 ≤ m.len
  · rw [memRead_two hle] at h
    exact ⟨hle, (Option.some.inj h).symm⟩
  · rw [Memory.memRead, if_neg hle] at h
    cases h

/-- Settles O28: a step on a chunk runs the instruction of the chunk's word, which is what the decoder reads from it. -/
theorem stepRunsTheDecodedInstr : Obligations.StepRunsTheDecodedInstr := by
  intro s bs i hr hread hdecode
  obtain ⟨hunread, rfl⟩ := memRead_two_eq_some hread
  rw [decode_pair] at hdecode
  cases hdecode
  exact step_at_chunk hr hunread

/-- A step on a chunk hands CORE's result for its two bytes to the sequencer (`45_sequencer.md` R161). -/
theorem step_eq_deliver {s : State} (hr : s.outcome = .running) (hunread : s.pos + 2 ≤ s.input.len) :
    step s = deliver (coreDecode config (cellsGet s.input.cells s.pos) (cellsGet s.input.cells (s.pos + 1))) s := by
  rw [step_at_chunk hr hunread, exec_eq_deliver, resultOf_decodeWord]
  rfl

theorem step_of_memRead {s : State} {b0 b1 : Byte} (hr : s.outcome = .running)
    (hread : s.input.memRead s.pos 2 = some [b0, b1]) : step s = deliver (coreDecode config b0 b1) s := by
  obtain ⟨hunread, hbytes⟩ := memRead_two_eq_some hread
  cases hbytes
  exact step_eq_deliver hr hunread

theorem step_done {s : State} (h : s.outcome = .done) : step s = .fault .finished := by simp only [step, h]

theorem step_failed {s : State} {e : StreamError} (h : s.outcome = .failed e) : step s = .fault (.aborted e) := by
  simp only [step, h]

/-- Settles O29: a step delivers `decode(b0, b1)`, and the two arms are the two things a delivery does. -/
theorem chunkStepFollowsCoreDecode : Obligations.ChunkStepFollowsCoreDecode := by
  intro s b0 b1 hr hread
  rw [step_of_memRead hr hread]
  cases coreDecode config b0 b1 with
  | ok text => simp [deliver_ok hr, appendLine]
  | error e => exact deliver_error hr e

/-- Settles O31: a delivered error is raised, and a failed run has no step. -/
theorem failedChunkAbortsTheRun : Obligations.FailedChunkAbortsTheRun := by
  intro s b0 b1 e hr hread herror
  refine ⟨?_, rfl, fun t h => ?_⟩
  · rw [step_of_memRead hr hread, herror]
    exact deliver_error hr e
  · rw [step_failed rfl] at h
    cases h

/-! ## The ends of a run -/

/-- Settles O30: with nothing unread a step finishes the run, at once where the input is empty. -/
theorem emptyRestEndsTheRun : Obligations.EmptyRestEndsTheRun := by
  refine ⟨fun s hr hpos => ⟨step_at_end hr hpos.ge, rfl, fun t h => ?_⟩,
    finish (State.load []), step_at_end rfl (Nat.le_refl 0), rfl⟩
  rw [step_done rfl] at h
  cases h

/-- Settles O32: with one byte unread a step raises the odd policy's error. -/
theorem danglingByteFailsTheRun : Obligations.DanglingByteFailsTheRun :=
  fun _ hr hpos => ⟨step_at_dangling hr hpos.symm, rfl⟩

/-- Settles O33: neither a step nor a delivery is enabled after the end of a run. -/
theorem endedRunHasNoStep : Obligations.EndedRunHasNoStep :=
  ⟨fun s i h => ⟨step_done h, (exec_eq_deliver i s).trans (deliver_done h _)⟩,
    fun s i _ h => ⟨step_failed h, (exec_eq_deliver i s).trans (deliver_failed h _)⟩⟩

/-! ## Every step -/

/-- `step_next` with the chunk's case said by CORE's result: everything a step can do where it answers a next state. -/
theorem step_next_cases {s t : State} (h : step s = .next t) :
    s.outcome = .running ∧
      ((s.input.len ≤ s.pos ∧ t = finish s) ∨ (s.input.len = s.pos + 1 ∧ t = raise config.oddPolicy s) ∨
        (s.pos + 2 ≤ s.input.len ∧
          ((∃ text, coreDecode config (cellsGet s.input.cells s.pos) (cellsGet s.input.cells (s.pos + 1)) = .ok text ∧
              t = appendLine text s) ∨
            ∃ e, coreDecode config (cellsGet s.input.cells s.pos) (cellsGet s.input.cells (s.pos + 1)) = .error e ∧
              t = raise (.decode e) s))) := by
  obtain ⟨hr, hend | hdangling | ⟨hunread, -⟩⟩ := step_next h
  · exact ⟨hr, .inl hend⟩
  · exact ⟨hr, .inr (.inl hdangling)⟩
  · rw [step_eq_deliver hr hunread] at h
    exact ⟨hr, .inr (.inr ⟨hunread, (deliver_next h).2⟩)⟩

theorem deliver_running {s : State} (hr : s.outcome = .running) (r : Except DecodeError Text) :
    ∃ t, deliver r s = .next t := by
  cases r with
  | ok text => exact ⟨_, deliver_ok hr text⟩
  | error e => exact ⟨_, deliver_error hr e⟩

theorem step_running {s : State} (hr : s.outcome = .running) : ∃ t, step s = .next t := by
  obtain ⟨hend, -⟩ | ⟨hdangling, -⟩ | ⟨hunread, -⟩ := fetch_cases s
  · exact ⟨_, step_at_end hr hend⟩
  · exact ⟨_, step_at_dangling hr hdangling⟩
  · rw [step_eq_deliver hr hunread]
    exact deliver_running hr _

theorem step_progress {s t : State} (h : step s = .next t) :
    (t.outcome ≠ .running ∧ t.pos = s.pos) ∨ (t.outcome = .running ∧ t.pos = s.pos + 2 ∧ t.pos ≤ t.input.len) := by
  obtain ⟨hr, ⟨-, rfl⟩ | ⟨-, rfl⟩ | ⟨hunread, ⟨text, -, rfl⟩ | ⟨e, -, rfl⟩⟩⟩ := step_next_cases h
  · exact .inl ⟨RunOutcome.noConfusion, finish_pos s⟩
  · exact .inl ⟨RunOutcome.noConfusion, raise_pos _ s⟩
  · exact .inr ⟨hr, appendLine_pos text s, hunread⟩
  · exact .inl ⟨RunOutcome.noConfusion, raise_pos _ s⟩

/-- Settles O34: the cases of a fetch give a next state each, and the cases of a step say where it leaves the
position. -/
theorem everyRunningStepProgresses : Obligations.EveryRunningStepProgresses :=
  ⟨fun _ => step_running, fun _ _ => step_progress⟩

theorem step_input {s t : State} (h : step s = .next t) : t.input = s.input := by
  obtain ⟨-, ⟨-, rfl⟩ | ⟨-, rfl⟩ | ⟨-, ⟨text, -, rfl⟩ | ⟨e, -, rfl⟩⟩⟩ := step_next_cases h <;> rfl

/-- Settles O35: every case of a step has the input it started with. -/
theorem noStepWritesTheInput : Obligations.NoStepWritesTheInput :=
  fun _ _ h => ⟨congrArg Memory.len (step_input h), fun _ => by rw [step_input h]⟩

/-- Settles O36: both steps deliver the same result of CORE, and what a delivery does to the position, the listing and
the outcome it does without the input. -/
theorem stepDependsOnItsChunkOnly : Obligations.StepDependsOnItsChunkOnly := by
  intro s s' t b0 b1 hpos hlisting houtcome hread hread' h
  obtain ⟨hr, -⟩ := step_next h
  have hr' := houtcome.trans hr
  rw [step_of_memRead hr hread] at h
  rw [step_of_memRead hr' hread']
  obtain ⟨-, ⟨text, hresult, rfl⟩ | ⟨e, hresult, rfl⟩⟩ := deliver_next h
  · exact ⟨appendLine text s', by rw [hresult, deliver_ok hr'], by simp [hpos], by simp [hlisting], by simp [houtcome]⟩
  · exact ⟨raise (.decode e) s', by rw [hresult, deliver_error hr'], hpos, hlisting, rfl⟩

end Sys2Proof.Machine
end

section
/-!
Proofs of the family `other`, whole runs: the invariant holds at the start, every step keeps it, and where a run has
ended it says that the result is `decode_stream`'s.
-/

namespace Sys2Proof.Machine

/-! ## The start -/

/-- Settles O37: the state at reset, written out. -/
theorem resetStateValues : Obligations.ResetStateValues := ⟨rfl, by decide, rfl, rfl⟩

/-- Settles O39: a laid-out sequence is in canonical form, and no byte of it is read yet. -/
theorem loadMeetsTheInvariant : Obligations.LoadMeetsTheInvariant :=
  fun bs => ⟨ofBytes_wf bs, lengthAdmitted_config _, Nat.zero_le _, rfl, rfl, rfl⟩

/-- Settles O38: reset is the start of a run over the empty sequence. -/
theorem resetMeetsTheInvariant : Obligations.ResetMeetsTheInvariant := loadMeetsTheInvariant []

/-! ## The bytes around the position -/

theorem toBytes_getElem {m : Memory} {k : Nat} (h : k < m.toBytes.length) : m.toBytes[k] = cellsGet m.cells k := by
  simp [Memory.toBytes]

theorem toBytes_drop {m : Memory} {k : Nat} (h : k < m.len) :
    m.toBytes.drop k = cellsGet m.cells k :: m.toBytes.drop (k + 1) := by
  rw [List.drop_eq_getElem_cons (by rwa [toBytes_length]), toBytes_getElem]

/-- The sequence as the bytes read, the chunk at the position and the bytes after it. -/
theorem toBytes_at_chunk {m : Memory} {k : Nat} (h : k + 2 ≤ m.len) :
    m.toBytes =
      m.toBytes.take k ++ cellsGet m.cells k :: cellsGet m.cells (k + 1) :: m.toBytes.drop (k + 2) := by
  rw [← toBytes_drop (by omega), ← toBytes_drop (by omega), List.take_append_drop]

theorem toBytes_take_chunk {m : Memory} {k : Nat} (h : k + 2 ≤ m.len) :
    m.toBytes.take (k + 2) = m.toBytes.take k ++ [cellsGet m.cells k, cellsGet m.cells (k + 1)] := by
  rw [List.take_add, toBytes_drop (by omega), toBytes_drop (by omega)]
  rfl

/-- The sequence as the bytes read and one byte left over. -/
theorem toBytes_at_dangling {m : Memory} {k : Nat} (h : k + 1 = m.len) :
    m.toBytes = m.toBytes.take k ++ [cellsGet m.cells k] := by
  have hdrop : m.toBytes.drop (k + 1) = [] := List.drop_eq_nil_of_le (by rw [toBytes_length, h])
  rw [← hdrop, ← toBytes_drop (by omega), List.take_append_drop]

/-! ## Every step keeps the invariant -/

theorem outcomeFits_running {s : State} (h : s.outcome = .running) : s.outcomeFitsPosition = true := by
  simp only [State.outcomeFitsPosition, h]

theorem outcomeFits_done {s : State} (h : s.outcome = .done) :
    s.outcomeFitsPosition = true ↔ s.pos = s.input.len := by
  simp only [State.outcomeFitsPosition, h, decide_eq_true_iff]

theorem outcomeFits_malformedInput {s : State} (h : s.outcome = .failed .malformedInput) :
    s.outcomeFitsPosition = true ↔ s.pos + 1 = s.input.len := by
  simp only [State.outcomeFitsPosition, h, decide_eq_true_iff]

theorem outcomeFits_decode {s : State} {e : DecodeError} (h : s.outcome = .failed (.decode e)) :
    s.outcomeFitsPosition = true ↔ s.pos + 2 ≤ s.input.len ∧
      coreDecode config (cellsGet s.input.cells s.pos) (cellsGet s.input.cells (s.pos + 1)) = .error e := by
  simp only [State.outcomeFitsPosition, h, Bool.and_eq_true, decide_eq_true_iff]

/-- The line of the chunk at the position makes the listing that of two bytes more. -/
theorem listingIsOfBytesRead_appendLine {s : State} {text : Text} (hlisting : s.listingIsOfBytesRead)
    (hunread : s.pos + 2 ≤ s.input.len)
    (htext : coreDecode config (cellsGet s.input.cells s.pos) (cellsGet s.input.cells (s.pos + 1)) = .ok text) :
    (appendLine text s).listingIsOfBytesRead := by
  rw [State.listingIsOfBytesRead, appendLine_input, appendLine_pos, toBytes_take_chunk hunread]
  exact decodeStream_append_ok hlisting htext

/-- Settles O40: a step that ends the run changes the outcome alone, to one that fits the position; a step on a chunk
that decodes adds its line and its two bytes together. -/
theorem everyStepKeepsTheInvariant : Obligations.EveryStepKeepsTheInvariant := by
  rintro s t ⟨hwf, hadmitted, hwithin, heven, hlisting, -⟩ h
  obtain ⟨hr, ⟨hend, rfl⟩ | ⟨hdangling, rfl⟩ | ⟨hunread, ⟨text, htext, rfl⟩ | ⟨e, herror, rfl⟩⟩⟩ := step_next_cases h
  · exact ⟨hwf, hadmitted, hwithin, heven, hlisting, (outcomeFits_done rfl).2 (Nat.le_antisymm hwithin hend)⟩
  · exact ⟨hwf, hadmitted, hwithin, heven, hlisting, (outcomeFits_malformedInput rfl).2 hdangling.symm⟩
  · exact ⟨hwf, hadmitted, hunread, (Nat.add_mod_right ..).trans heven,
      listingIsOfBytesRead_appendLine hlisting hunread htext, outcomeFits_running hr⟩
  · exact ⟨hwf, hadmitted, hwithin, heven, hlisting, (outcomeFits_decode rfl).2 ⟨hunread, herror⟩⟩

/-! ## The result of a run -/

/-- Where a run has ended, the invariant makes its result what `decode_stream` gives for the whole input. -/
theorem result_of_ended {s : State} (hinv : s.Inv) (hended : s.outcome ≠ .running) :
    s.result = some (decodeStream config s.input.toBytes) := by
  obtain ⟨-, -, -, -, hlisting, hfits⟩ := hinv
  cases houtcome : s.outcome with
  | running => exact absurd houtcome hended
  | done =>
    have hall : s.input.toBytes.take s.pos = s.input.toBytes :=
      List.take_of_length_le (by rw [toBytes_length, (outcomeFits_done houtcome).1 hfits])
    rw [result_done houtcome, ← hlisting, hall]
  | failed e =>
    rw [result_failed houtcome]
    cases e with
    | malformedInput =>
      rw [toBytes_at_dangling ((outcomeFits_malformedInput houtcome).1 hfits), decodeStream_append_dangling hlisting,
        config_oddPolicy]
    | decode e =>
      obtain ⟨hunread, herror⟩ := (outcomeFits_decode houtcome).1 hfits
      rw [toBytes_at_chunk hunread, decodeStream_append_error hlisting herror]

/-- A step of a run leads to the end of it, with its result, or on to a state of the same run two bytes further. -/
theorem step_of_run {s : State} (hinv : s.Inv) (hr : s.outcome = .running) :
    ∃ t, step s = .next t ∧
      (t.result = some (decodeStream config s.input.toBytes) ∨
        (t.Inv ∧ t.outcome = .running ∧ t.input = s.input ∧ t.pos = s.pos + 2 ∧ t.pos ≤ s.input.len)) := by
  obtain ⟨t, hstep⟩ := step_running hr
  have hinvt := everyStepKeepsTheInvariant s t hinv hstep
  have hinput := step_input hstep
  refine ⟨t, hstep, ?_⟩
  rw [← hinput]
  obtain ⟨hended, -⟩ | ⟨hrunning, hpos, hwithin⟩ := step_progress hstep
  · exact .inl (result_of_ended hinvt hended)
  · exact .inr ⟨hinvt, hrunning, rfl, hpos, hwithin⟩

/-- From a running state of a run the steps go on to the end of it: one for each chunk left, and one more. -/
theorem run_to_end (chunks : Nat) {s : State} (hinv : s.Inv) (hr : s.outcome = .running)
    (hleft : s.input.len ≤ s.pos + 2 * chunks + 1) :
    ∃ k t, k ≤ chunks + 1 ∧ core.run k s = .next t ∧ t.result = some (decodeStream config s.input.toBytes) := by
  induction chunks generalizing s with
  | zero =>
    obtain ⟨t, hstep, hresult | ⟨-, -, -, hpos, hwithin⟩⟩ := step_of_run hinv hr
    · exact ⟨1, t, Nat.le_refl 1, run_succ hstep 0, hresult⟩
    · omega
  | succ chunks ih =>
    obtain ⟨t, hstep, hresult | ⟨hinvt, hrunning, hinput, hpos, -⟩⟩ := step_of_run hinv hr
    · exact ⟨1, t, by omega, run_succ hstep 0, hresult⟩
    · obtain ⟨k, u, hk, hrun, hresult⟩ := ih hinvt hrunning (by rw [hinput]; omega)
      rw [hinput] at hresult
      exact ⟨k + 1, u, by omega, (run_succ hstep k).trans hrun, hresult⟩

/-- Settles O41: the run from the start over a sequence, whose bytes are that sequence, goes on to its end. -/
theorem runGivesDecodeStream : Obligations.RunGivesDecodeStream := by
  intro bs
  have hleft : (State.load bs).input.len ≤ (State.load bs).pos + 2 * (bs.length / 2) + 1 := by
    rw [load_input, ofBytes_len, load_pos]
    omega
  obtain ⟨k, t, hk, hrun, hresult⟩ := run_to_end (bs.length / 2) (loadMeetsTheInvariant bs) rfl hleft
  rw [load_input, toBytes_ofBytes] at hresult
  exact ⟨k, t, hk, hrun, hresult⟩

end Sys2Proof.Machine
end
